-- ==== Sys2Proof/Word.lean ====
section
/-! DEFINITION. The bit-vector types of the block: the word register, a command header, the status code. -/

namespace Sys2Proof

/-- The 32-bit ARINC 429 word (10_state.md R20). Bit `k` of the spec (1-indexed, R5) is bit `k - 1` here. -/
abbrev Word := BitVec 32

/-- The 32-bit header of a command (30_encoding.md R51). -/
abbrev Header := BitVec 32

/-- The 3-bit completion code `STATUS[2:0]` (10_state.md R29). -/
abbrev Status := BitVec 3

end Sys2Proof
end

