-- ==== Sys2Proof/Config.lean ====
section
/-! DEFINITION. The implementation parameters of 00_scope.md section 4 (R4): each is an argument of the model, with
the spec's default. A block instance carries one value of each for its whole life (`Machine.State.params`). The spec
leaves no value open beyond these, so the model has no opaque constant. -/

namespace Sys2Proof

/-- `ROUND_MODE`: the value-to-integer rounding of the scaling step (R4, R72, 90_conflicts.md C1). -/
inductive RoundMode where
  /-- Nearest integer, ties away from zero: the normative policy and the default. -/
  | nearestAway
  /-- Truncation: reproduces the source's BNR literal. -/
  | towardZero
deriving DecidableEq, Repr

/-- `RW`: the width of the integer result register RINT (R4, R27, R81). -/
inductive ResultWidth where
  /-- `UNBOUNDED`: RINT holds any integer; the default. -/
  | unbounded
  /-- A signed two's-complement register of that many bits. -/
  | bits (rw : Nat)
deriving DecidableEq, Repr

/-- `BCD_MALFORMED`: what BCD decode does with a nibble above 9 (R4, R102). -/
inductive MalformedPolicy where
  /-- The nibble's value is added with its decimal weight; the default. -/
  | weightedSum
  /-- `MalformedBCDError`. -/
  | error
deriving DecidableEq, Repr

/-- The parameters of one block instance, with the defaults of 00_scope.md section 4. -/
structure Params where
  /-- `AW`: the width of each operand slot. -/
  aw : Nat := 64
  /-- `RW`: the width of RINT. -/
  rw : ResultWidth := .unbounded
  /-- `ROUND_MODE`. -/
  roundMode : RoundMode := .nearestAway
  /-- `BCD_NEG_SSM`: the SSM code that BCD decode reads as negative. -/
  bcdNegSsm : BitVec 2 := 3#2
  /-- `BCD_MALFORMED`. -/
  bcdMalformed : MalformedPolicy := .weightedSum
deriving DecidableEq, Repr

/-- Every parameter at its default (00_scope.md section 4). -/
def Params.defaults : Params := {}

/-- `RW` has a legal value: unbounded, or at least 33 (00_scope.md section 4). -/
def ResultWidth.isLegal : ResultWidth → Bool
  | .unbounded => true
  | .bits rw => decide (33 ≤ rw)

/-- The legal parameter values of 00_scope.md section 4 (R4). The other three parameters are legal by their types. -/
abbrev Params.Legal (p : Params) : Prop := 32 ≤ p.aw ∧ p.rw.isLegal = true

end Sys2Proof
end

