-- ==== Sys2Proof/Syntax.lean ====
section
/-! DEFINITION. A command as it stands on the command port, and the abstract syntax of the 18 opcodes. -/

namespace Sys2Proof

/-- What the command port presents for one command (30_encoding.md R50): the header and the five operand slots, each
slot as the unsigned number its `AW` port bits spell. A slot's reading takes its low `AW` bits (`Decode.lean`). -/
structure Command where
  /-- The header `H`. -/
  header : Header
  /-- Slot `A`. -/
  a : Nat
  /-- Slot `VN`. -/
  vn : Nat
  /-- Slot `VD`. -/
  vd : Nat
  /-- Slot `RN`. -/
  rn : Nat
  /-- Slot `RD`. -/
  rd : Nat
deriving DecidableEq, Repr

/-- One constructor per row of `spec/opcode_table.json`, carrying exactly the header fields and operand slots the row
uses (30_encoding.md R58). `a`, `vn` and `rn` are signed, `vd` and `rd` unsigned (R53). -/
inductive Instr where
  | nop
  | new
  | setlbl (a : Int)
  | setsdi (ss : BitVec 2)
  | setssm (ss : BitVec 2)
  | setdisc (lsb msb : BitVec 5) (a : Int)
  | setbcd (lsb msb : BitVec 5) (vn : Int) (vd : Nat) (rn : Int) (rd : Nat)
  | setbnr (lsb msb : BitVec 5) (vn : Int) (vd : Nat) (rn : Int) (rd : Nat)
  | getfld (lsb msb : BitVec 5)
  | encdisc (a : Int)
  | encbcd (vn : Int) (vd : Nat) (rn : Int) (rd : Nat)
  | encbnr (vn : Int) (vd : Nat) (rn : Int) (rd : Nat)
  | decdisc (a : Int)
  | decbcd (a : Int) (ss : BitVec 2) (rn : Int) (rd : Nat)
  | decbnr (a : Int) (cnt : BitVec 6) (rn : Int) (rd : Nat)
  | pargen (a : Int)
  | valrng (lsb msb : BitVec 5)
  | vallen (a : Int) (cnt : BitVec 6)
deriving DecidableEq, Repr

end Sys2Proof
end

