-- ==== Sys2Proof/WellFormed.lean ====
section
/-! DEFINITION. Which instructions a command can carry: every operand fits its slot. The header fields fit by their
types. A zero denominator, a negative raw value or an illegal range is well formed: it is a command the block accepts
and answers with an error (R75, R70). -/

namespace Sys2Proof

/-- `v` is an `n`-bit two's-complement integer. -/
def fitsSigned (n : Nat) (v : Int) : Bool := decide (-(2 ^ (n - 1) : Int) ≤ v) && decide (v < (2 ^ (n - 1) : Int))

/-- `v` is an `n`-bit unsigned integer. -/
def fitsUnsigned (n : Nat) (v : Nat) : Bool := decide (v < 2 ^ n)

/-- A numerator and denominator pair fits its two slots: N signed, D unsigned (00_scope.md R9). -/
def fitsPair (p : Params) (n : Int) (d : Nat) : Bool := fitsSigned p.aw n && fitsUnsigned p.aw d

/-- Every operand of the instruction fits the slot it is carried in (30_encoding.md R53). -/
def Instr.wellFormed (p : Params) : Instr → Bool
  | .nop => true
  | .new => true
  | .setlbl a => fitsSigned p.aw a
  | .setsdi _ => true
  | .setssm _ => true
  | .setdisc _ _ a => fitsSigned p.aw a
  | .setbcd _ _ vn vd rn rd => fitsPair p vn vd && fitsPair p rn rd
  | .setbnr _ _ vn vd rn rd => fitsPair p vn vd && fitsPair p rn rd
  | .getfld _ _ => true
  | .encdisc a => fitsSigned p.aw a
  | .encbcd vn vd rn rd => fitsPair p vn vd && fitsPair p rn rd
  | .encbnr vn vd rn rd => fitsPair p vn vd && fitsPair p rn rd
  | .decdisc a => fitsSigned p.aw a
  | .decbcd a _ rn rd => fitsSigned p.aw a && fitsPair p rn rd
  | .decbnr a _ rn rd => fitsSigned p.aw a && fitsPair p rn rd
  | .pargen a => fitsSigned p.aw a
  | .valrng _ _ => true
  | .vallen a _ => fitsSigned p.aw a

end Sys2Proof
end

