-- ==== Sys2Proof/Decode.lean ====
section
/-! DEFINITION. The command decoder, total on every header and every operand slot, and the encoder beside it
(30_encoding.md R51 to R59). -/

namespace Sys2Proof

/-! ## Header fields (R51) -/

/-- `OP = H[4:0]`. -/
def Header.op (h : Header) : BitVec 5 := h.extractLsb' 0 5
/-- `LSB = H[9:5]`. -/
def Header.lsb (h : Header) : BitVec 5 := h.extractLsb' 5 5
/-- `MSB = H[14:10]`. -/
def Header.msb (h : Header) : BitVec 5 := h.extractLsb' 10 5
/-- `SS = H[16:15]`. -/
def Header.ss (h : Header) : BitVec 2 := h.extractLsb' 15 2
/-- `CNT = H[22:17]`. -/
def Header.cnt (h : Header) : BitVec 6 := h.extractLsb' 17 6
/-- `RSV = H[31:23]`. -/
def Header.rsv (h : Header) : BitVec 9 := h.extractLsb' 23 9

/-- `H = OP | (LSB << 5) | (MSB << 10) | (SS << 15) | (CNT << 17)`, with RSV zero (R51). -/
def Header.assemble (op lsb msb : BitVec 5) (ss : BitVec 2) (cnt : BitVec 6) : Header :=
  op.setWidth 32 ||| (lsb.setWidth 32 <<< 5) ||| (msb.setWidth 32 <<< 10) ||| (ss.setWidth 32 <<< 15) |||
    (cnt.setWidth 32 <<< 17)

/-! ## Operand slots (R53) -/

/-- `sext_N(v)` for `0 ≤ v < 2^N`: `v - 2^N` if bit `N-1` is set, else `v` (00_scope.md R7). -/
def sext (n v : Nat) : Int := if v.testBit (n - 1) then (v : Int) - 2 ^ n else v

/-- A signed slot: `sext_AW` of its `AW` port bits. -/
def signedSlot (p : Params) (port : Nat) : Int := sext p.aw (port % 2 ^ p.aw)

/-- An unsigned slot: `zext_AW` of its `AW` port bits. -/
def unsignedSlot (p : Params) (port : Nat) : Nat := port % 2 ^ p.aw

/-! ## Decoder -/

/-- The instruction a legal opcode selects, with the operands R58 marks as used; `none` for 0x12 to 0x1F (R56). -/
def decodeOp (p : Params) (c : Command) : Nat → Option Instr
  | 0x00 => some .nop
  | 0x01 => some .new
  | 0x02 => some (.setlbl (signedSlot p c.a))
  | 0x03 => some (.setsdi c.header.ss)
  | 0x04 => some (.setssm c.header.ss)
  | 0x05 => some (.setdisc c.header.lsb c.header.msb (signedSlot p c.a))
  | 0x06 => some (.setbcd c.header.lsb c.header.msb (signedSlot p c.vn) (unsignedSlot p c.vd) (signedSlot p c.rn) (unsignedSlot p c.rd))
  | 0x07 => some (.setbnr c.header.lsb c.header.msb (signedSlot p c.vn) (unsignedSlot p c.vd) (signedSlot p c.rn) (unsignedSlot p c.rd))
  | 0x08 => some (.getfld c.header.lsb c.header.msb)
  | 0x09 => some (.encdisc (signedSlot p c.a))
  | 0x0A => some (.encbcd (signedSlot p c.vn) (unsignedSlot p c.vd) (signedSlot p c.rn) (unsignedSlot p c.rd))
  | 0x0B => some (.encbnr (signedSlot p c.vn) (unsignedSlot p c.vd) (signedSlot p c.rn) (unsignedSlot p c.rd))
  | 0x0C => some (.decdisc (signedSlot p c.a))
  | 0x0D => some (.decbcd (signedSlot p c.a) c.header.ss (signedSlot p c.rn) (unsignedSlot p c.rd))
  | 0x0E => some (.decbnr (signedSlot p c.a) c.header.cnt (signedSlot p c.rn) (unsignedSlot p c.rd))
  | 0x0F => some (.pargen (signedSlot p c.a))
  | 0x10 => some (.valrng c.header.lsb c.header.msb)
  | 0x11 => some (.vallen (signedSlot p c.a) c.header.cnt)
  | _ => none

/-- The decoder. `none` is an illegal header: RSV not zero, whatever OP holds, or a reserved opcode (R56). -/
def decode (p : Params) (c : Command) : Option Instr :=
  if c.header.rsv = 0#9 then decodeOp p c c.header.op.toNat else none

/-! ## Encoder -/

/-- The opcode number (R58). -/
def Instr.opcode : Instr → BitVec 5
  | .nop => 0x00#5
  | .new => 0x01#5
  | .setlbl _ => 0x02#5
  | .setsdi _ => 0x03#5
  | .setssm _ => 0x04#5
  | .setdisc _ _ _ => 0x05#5
  | .setbcd _ _ _ _ _ _ => 0x06#5
  | .setbnr _ _ _ _ _ _ => 0x07#5
  | .getfld _ _ => 0x08#5
  | .encdisc _ => 0x09#5
  | .encbcd _ _ _ _ => 0x0A#5
  | .encbnr _ _ _ _ => 0x0B#5
  | .decdisc _ => 0x0C#5
  | .decbcd _ _ _ _ => 0x0D#5
  | .decbnr _ _ _ _ => 0x0E#5
  | .pargen _ => 0x0F#5
  | .valrng _ _ => 0x10#5
  | .vallen _ _ => 0x11#5

/-- The `AW` port bits of a signed operand: its two's-complement bits. -/
def slotBits (p : Params) (v : Int) : Nat := (v % 2 ^ p.aw).toNat

/-- A command with the given header fields and every slot zero. -/
def bareCommand (op lsb msb : BitVec 5) (ss : BitVec 2) (cnt : BitVec 6) : Command :=
  { header := .assemble op lsb msb ss cnt, a := 0, vn := 0, vd := 0, rn := 0, rd := 0 }

/-- Put a signed operand in slot A. -/
def Command.withA (p : Params) (a : Int) (c : Command) : Command := { c with a := slotBits p a }
/-- Put a value operand in slots VN and VD. -/
def Command.withV (p : Params) (vn : Int) (vd : Nat) (c : Command) : Command := { c with vn := slotBits p vn, vd := vd }
/-- Put a resolution operand in slots RN and RD. -/
def Command.withR (p : Params) (rn : Int) (rd : Nat) (c : Command) : Command := { c with rn := slotBits p rn, rd := rd }

/-- The command that carries an instruction; every unused header field and slot is zero, as a toolchain should write
them (R51, R53, R55, R58). -/
def encode (p : Params) (i : Instr) : Command :=
  match i with
  | .nop => bareCommand i.opcode 0 0 0 0
  | .new => bareCommand i.opcode 0 0 0 0
  | .setlbl a => (bareCommand i.opcode 0 0 0 0).withA p a
  | .setsdi ss => bareCommand i.opcode 0 0 ss 0
  | .setssm ss => bareCommand i.opcode 0 0 ss 0
  | .setdisc lsb msb a => (bareCommand i.opcode lsb msb 0 0).withA p a
  | .setbcd lsb msb vn vd rn rd => ((bareCommand i.opcode lsb msb 0 0).withV p vn vd).withR p rn rd
  | .setbnr lsb msb vn vd rn rd => ((bareCommand i.opcode lsb msb 0 0).withV p vn vd).withR p rn rd
  | .getfld lsb msb => bareCommand i.opcode lsb msb 0 0
  | .encdisc a => (bareCommand i.opcode 0 0 0 0).withA p a
  | .encbcd vn vd rn rd => ((bareCommand i.opcode 0 0 0 0).withV p vn vd).withR p rn rd
  | .encbnr vn vd rn rd => ((bareCommand i.opcode 0 0 0 0).withV p vn vd).withR p rn rd
  | .decdisc a => (bareCommand i.opcode 0 0 0 0).withA p a
  | .decbcd a ss rn rd => ((bareCommand i.opcode 0 0 ss 0).withA p a).withR p rn rd
  | .decbnr a cnt rn rd => ((bareCommand i.opcode 0 0 0 cnt).withA p a).withR p rn rd
  | .pargen a => (bareCommand i.opcode 0 0 0 0).withA p a
  | .valrng lsb msb => bareCommand i.opcode lsb msb 0 0
  | .vallen a cnt => (bareCommand i.opcode 0 0 0 cnt).withA p a

/-! ## A command as one number

The host numbers a command's bits from the header's bit 0. The slots follow the header in the order R50 lists them:
A, VN, VD, RN, RD, each `AW` bits (the order is the model's, log entry 5). -/

/-- The command whose bits are `w`: header in bits 31..0, then the five slots of `aw` bits each. -/
def commandOfBits (aw w : Nat) : Command :=
  { header := BitVec.ofNat 32 w
    a := (w >>> 32) % 2 ^ aw
    vn := (w >>> (32 + aw)) % 2 ^ aw
    vd := (w >>> (32 + 2 * aw)) % 2 ^ aw
    rn := (w >>> (32 + 3 * aw)) % 2 ^ aw
    rd := (w >>> (32 + 4 * aw)) % 2 ^ aw }

/-- The instruction the decoder reads, at the default parameters, from a table row's word of `nbits` bits; every bit
above `nbits` is zero, so operand slots beyond it are zero. -/
def decodeTableWord (nbits w : Nat) : Option Instr := decode .defaults (commandOfBits Params.defaults.aw (w % 2 ^ nbits))

end Sys2Proof
end

