-- ==== Sys2Proof/Machine/State.lean ====
section
/-! DEFINITION. Everything the spec gives the block as state (10_state.md), and the model's own two fields: the
parameters of the instance and the inputs still to come at its ports. -/

namespace Sys2Proof.Machine

/-- Why the machine stops with a fault. The spec gives none: an error is a command's completion code in STATUS, the
block then accepts the next command (60_exceptions.md R160, R165), and there is no trap, no memory and no address that
could be absent (R40, R47). So this type has no constructor. -/
inductive Fault where
deriving DecidableEq, Repr

/-- Why the machine refuses an instruction. -/
inductive Refusal where
  /-- Raised by no arm of `exec`: every opcode has its meaning. It is safe, since it stops. -/
  | notModelled (mnemonic : String)
deriving DecidableEq, Repr

/-- What the host presents at the block's inputs for one step: the RST input and, perhaps, a command (R50, R180). -/
structure PortSample where
  /-- RST is asserted. -/
  rst : Bool
  /-- The command at the command port, if there is one. -/
  command : Option Command
deriving DecidableEq, Repr

/-- The state of one block instance. -/
@[ext]
structure State where
  /-- `W`, the word register (R20). -/
  w : Word
  /-- `RINT`, the integer result register: any integer, or one that fits `RW` bits (R27). -/
  rint : Int
  /-- `RQ`, the rational result register: an exact rational (R27). -/
  rq : Rat
  /-- `STATUS`, the completion code of the last command (R29). -/
  status : Status
  /-- `ERRVAL`, the offending value of a FieldOverflowError, else 0 (R30). -/
  errval : Int
  /-- `ERRW`, the available width of a FieldOverflowError, else 0 (R30). -/
  errw : Nat
  /-- MODEL'S OWN: the parameters this instance was built with (R4); no step changes them (log entry 1). -/
  params : Params
  /-- MODEL'S OWN: what the host will present at the inputs, first first (R32, R48; log entry 2). -/
  port : List PortSample
deriving DecidableEq, Repr

/-- The machine right after reset: the values of 10_state.md R33, default parameters, nothing at the inputs. -/
def State.reset : State :=
  { w := 0x80000000#32, rint := 0, rq := 0, status := 0#3, errval := 0, errw := 0, params := .defaults, port := [] }

end Sys2Proof.Machine
end

