-- ==== Sys2Proof/Machine/Flags.lean ====
section
/-! DEFINITION. Parity, and what an error writes to STATUS, ERRVAL and ERRW. These are the block's only flags
(10_state.md R35). -/

namespace Sys2Proof.Machine

/-- `popcount(v)`: the number of set bits (00_scope.md R7). -/
def popcount {n : Nat} (v : BitVec n) : Nat := (List.range n).countP v.getLsbD

/-- `par(x) = 1 XOR (popcount(x) mod 2)`: the odd-parity bit of bits 1 to 31 (40_primitives.md R76). -/
def par (x : BitVec 31) : BitVec 1 := 1#1 ^^^ BitVec.ofNat 1 (popcount x % 2)

/-- The error kinds of 60_exceptions.md R162. Only FieldOverflowError's information reaches a register (R160), so only
that kind carries it. -/
inductive CmdError where
  | rangeError
  | fieldOverflow (value : Int) (width : Nat)
  | valueError
  | malformedBcd
  | illegal
deriving DecidableEq, Repr

/-- The STATUS code of an error kind (R162). Codes 5 and 6 are never written. -/
def CmdError.code : CmdError → Status
  | .rangeError => 1#3
  | .fieldOverflow _ _ => 2#3
  | .valueError => 3#3
  | .malformedBcd => 4#3
  | .illegal => 7#3

/-- What the error writes to ERRVAL (R160, R162). -/
def CmdError.errval : CmdError → Int
  | .fieldOverflow value _ => value
  | .rangeError => 0
  | .valueError => 0
  | .malformedBcd => 0
  | .illegal => 0

/-- What the error writes to ERRW (R160, R162). -/
def CmdError.errw : CmdError → Nat
  | .fieldOverflow _ width => width
  | .rangeError => 0
  | .valueError => 0
  | .malformedBcd => 0
  | .illegal => 0

end Sys2Proof.Machine
end

