-- ==== Sys2Proof/Machine/Ops.lean ====
section
/-! DEFINITION. The shared operations: how a command ends, the bit-field primitives of 40_primitives.md, the writes of
W and RINT, reset, and the output ports. A check is an `Except CmdError`; `raise` is `.error` (00_scope.md R8). -/

namespace Sys2Proof.Machine

/-! ## How a command ends (60_exceptions.md R160, R161) -/

/-- Abort: every staged write is discarded, so W, RINT and RQ keep the values from before the command; STATUS, ERRVAL
and ERRW are written from the error (R160). This is all "taking an exception" there is: the block has no trap, and no
return from one (R165). -/
def abort (e : CmdError) (s : State) : State := { s with status := e.code, errval := e.errval, errw := e.errw }

/-- Completion without a raise: the staged writes stand, then STATUS, ERRVAL and ERRW are cleared (R161). -/
def complete (t : State) : State := { t with status := 0#3, errval := 0, errw := 0 }

/-- The end of a command issued in `s` whose pseudocode gave `r`: the staged state, or the error it raised. -/
def settle (s : State) (r : Except CmdError State) : Host.Outcome State Fault Refusal :=
  match r with
  | .ok t => .next (complete t)
  | .error e => .next (abort e s)

/-! ## Ranges, widths and rounding -/

/-- `validate_range(lsb, msb)` (R70). -/
def validateRange (lsb msb : Nat) : Except CmdError Unit :=
  if lsb > msb ∨ lsb < 11 ∨ lsb > 29 ∨ msb < 11 ∨ msb > 29 then .error .rangeError else .ok ()

/-- `width(lsb, msb) = msb - lsb + 1` (R71). -/
def width (lsb msb : Nat) : Nat := msb - lsb + 1

/-- `round(x)` under ROUND_MODE (R72). -/
def roundQ (m : RoundMode) (x : Rat) : Int :=
  match m with
  | .nearestAway => x.num.sign * (|x| + 1 / 2).floor
  | .towardZero => x.num.sign * |x|.floor

/-- `scale(v, r) = round(v / r)` (R73). -/
def scale (m : RoundMode) (v r : Rat) : Int := roundQ m (v / r)

/-- `validate_bit_length(raw, len)` (R74). -/
def validateBitLength (raw len : Nat) : Except CmdError Unit :=
  if raw ≥ 2 ^ len then .error (.fieldOverflow raw len) else .ok ()

/-! ## Fields of the word -/

/-- `fld(w, lsb, msb)`: bits lsb to msb, right-shifted (R77). -/
def fld (w : Word) (lsb msb : Nat) : Nat := (w.toNat >>> (lsb - 1)) % 2 ^ width lsb msb

/-- The mask `M = (2^width - 1) << (lsb - 1)` of R78. -/
def fieldMask (lsb msb : Nat) : Word := BitVec.ofNat 32 (2 ^ width lsb msb - 1) <<< (lsb - 1)

/-- `merge(w, lsb, msb, raw)`: clear bits lsb to msb and OR in the raw value shifted to lsb (R78). -/
def merge (w : Word) (lsb msb raw : Nat) : Word :=
  (w &&& ~~~ fieldMask lsb msb) ||| (BitVec.ofNat 32 raw <<< (lsb - 1))

/-- `(par(x) << 31) | x` (R131, R141). -/
def withParity (x : BitVec 31) : Word := (par x ++ x : BitVec (1 + 31))

/-! ## Writes -/

/-- `commit(w)`: keep `w[30:0]`, recompute bit 32, write W (44_word.md R131). -/
def commit (s : State) (w : Word) : State := { s with w := withParity (w.extractLsb' 0 31) }

/-- `v` is a value RINT can hold (R27, R81). -/
def fitsRint (rw : ResultWidth) (v : Int) : Bool :=
  match rw with
  | .unbounded => true
  | .bits n => decide (-(2 ^ (n - 1) : Int) ≤ v) && decide (v ≤ (2 ^ (n - 1) : Int) - 1)

/-- The width FieldOverflowError reports when RINT is too narrow: `RW` (R81). An unbounded RINT is never too narrow. -/
def rintWidth : ResultWidth → Nat
  | .unbounded => 0
  | .bits n => n

/-- `put_rint(v)` (R81). -/
def putRint (s : State) (v : Int) : Except CmdError State :=
  if fitsRint s.params.rw v then .ok { s with rint := v } else .error (.fieldOverflow v (rintWidth s.params.rw))

/-- `place(raw)`, the common tail of a bit-range set whose range is already validated (44_word.md R136). -/
def place (s : State) (lsb msb raw : Nat) : Except CmdError State := do
  validateBitLength raw (width lsb msb)
  pure (commit s (merge s.w lsb msb raw))

/-! ## Digits -/

/-- The digits of `n` to the given base, least significant first, at most `fuel` of them. -/
def digitsAux (base : Nat) : Nat → Nat → List Nat
  | 0, _ => []
  | fuel + 1, n => if n = 0 then [] else n % base :: digitsAux base fuel (n / base)

/-- The digits of `n` to a base of at least 2, least significant first; no digit for 0. -/
def digits (base n : Nat) : List Nat := digitsAux base n n

/-- The value of a list of digits, least significant first. -/
def ofDigits (base : Nat) : List Nat → Nat
  | [] => 0
  | d :: ds => d + base * ofDigits base ds

/-! ## Reset (70_reset_and_hazards.md R180) -/

/-- Every register at its reset value (10_state.md R33); the parameters and the inputs to come are not registers. -/
def resetRegisters (s : State) : State := { State.reset with params := s.params, port := s.port }

/-! ## Output ports: continuous read-only views (10_state.md R31) -/

/-- `WORD_O`. -/
def State.wordO (s : State) : Word := s.w
/-- `LABEL_O = W[7:0]` (R21). -/
def State.labelO (s : State) : BitVec 8 := s.w.extractLsb' 0 8
/-- `SDI_O = W[9:8]` (R22). -/
def State.sdiO (s : State) : BitVec 2 := s.w.extractLsb' 8 2
/-- `DATA_O = W[28:10]` (R23). -/
def State.dataO (s : State) : BitVec 19 := s.w.extractLsb' 10 19
/-- `SSM_O = W[30:29]` (R24). -/
def State.ssmO (s : State) : BitVec 2 := s.w.extractLsb' 29 2
/-- `PAR_O = W[31]` (R25). -/
def State.parO (s : State) : BitVec 1 := s.w.extractLsb' 31 1
/-- `RINT_O`. -/
def State.rintO (s : State) : Int := s.rint
/-- `RQ_O`. -/
def State.rqO (s : State) : Rat := s.rq
/-- `STATUS_O`. -/
def State.statusO (s : State) : Status := s.status
/-- `ERRVAL_O`. -/
def State.errvalO (s : State) : Int := s.errval
/-- `ERRW_O`. -/
def State.errwO (s : State) : Nat := s.errw

end Sys2Proof.Machine
end

