-- ==== Sys2Proof/Machine/Operands.lean ====
section
/-! DEFINITION. The operand forms and their validity checks (00_scope.md R9, 40_primitives.md R75). -/

namespace Sys2Proof.Machine

/-- `q(N, D) = N / D`, an exact rational, used only where `D` is not 0 (00_scope.md R9). -/
def q (n : Int) (d : Nat) : Rat := (n : Rat) / (d : Rat)

/-- `valid_resolution()` on the slots RN and RD: the resolution R, which must exist and be positive (R75). -/
def validResolution (rn : Int) (rd : Nat) : Except CmdError Rat :=
  if rd = 0 then .error .valueError
  else if q rn rd ≤ 0 then .error .valueError
  else .ok (q rn rd)

/-- `valid_value()` on the slots VN and VD: the value V, which must exist (R75). -/
def validValue (vn : Int) (vd : Nat) : Except CmdError Rat :=
  if vd = 0 then .error .valueError else .ok (q vn vd)

/-- `valid_unsigned(a)`: a raw or discrete integer, which must not be negative (R75). -/
def validUnsigned (a : Int) : Except CmdError Nat :=
  if a < 0 then .error .valueError else .ok a.toNat

end Sys2Proof.Machine
end

