-- ==== Sys2Proof/Machine/Utility.lean ====
section
/-! DEFINITION. The two commands that expose the bit-field utilities (40_primitives.md section 2): VALRNG and VALLEN. -/

namespace Sys2Proof.Machine

/-- VALRNG (R79). -/
def execValrng (lsb msb : BitVec 5) (s : State) : Host.Outcome State Fault Refusal :=
  settle s do
    validateRange lsb.toNat msb.toNat
    pure s

/-- VALLEN (R80). -/
def execVallen (a : Int) (cnt : BitVec 6) (s : State) : Host.Outcome State Fault Refusal :=
  settle s do
    let raw ← validUnsigned a
    validateBitLength raw cnt.toNat
    pure s

end Sys2Proof.Machine
end

