-- ==== Sys2Proof/Machine/Bcd.lean ====
section
/-! DEFINITION. The BCD codec (42_bcd.md): ENCBCD and DECBCD. -/

namespace Sys2Proof.Machine

/-- `bcd_pack(n)`: decimal digit i of n in nibble i (R100). -/
def bcdPack (n : Nat) : Nat := ofDigits 16 (digits 10 n)

/-- Some nibble of raw has a value above 9 (R102). -/
def hasBadNibble (raw : Nat) : Bool := (digits 16 raw).any fun g => decide (g > 9)

/-- `bcd_unpack(raw)`: nibble i carries the weight 10^i (R101). A nibble above 9 raises under BCD_MALFORMED = ERROR and
keeps its value under WEIGHTED_SUM (R102; no claim rests on that value, log entry 6). -/
def bcdUnpack (m : MalformedPolicy) (raw : Nat) : Except CmdError Nat :=
  match m with
  | .weightedSum => .ok (ofDigits 10 (digits 16 raw))
  | .error => if hasBadNibble raw then .error .malformedBcd else .ok (ofDigits 10 (digits 16 raw))

/-- `bcd_encode()` (R103). -/
def bcdEncode (p : Params) (vn : Int) (vd : Nat) (rn : Int) (rd : Nat) : Except CmdError Nat := do
  let r ← validResolution rn rd
  let v ← validValue vn vd
  if v < 0 then throw .valueError
  pure (bcdPack (scale p.roundMode v r).toNat)

/-- `bcd_sign(ss)`: -1 for the designated SSM code, else +1 (R106). -/
def bcdSign (p : Params) (ss : BitVec 2) : Int := if ss = p.bcdNegSsm then -1 else 1

/-- `bcd_decode(raw, ss)` (R105). -/
def bcdDecode (p : Params) (raw : Int) (ss : BitVec 2) (rn : Int) (rd : Nat) : Except CmdError Rat := do
  let r ← validResolution rn rd
  let raw ← validUnsigned raw
  let n ← bcdUnpack p.bcdMalformed raw
  pure ((bcdSign p ss : Rat) * (n : Rat) * r)

/-- ENCBCD (R104). -/
def execEncbcd (vn : Int) (vd : Nat) (rn : Int) (rd : Nat) (s : State) : Host.Outcome State Fault Refusal :=
  settle s do
    let raw ← bcdEncode s.params vn vd rn rd
    putRint s raw

/-- DECBCD (R107). -/
def execDecbcd (a : Int) (ss : BitVec 2) (rn : Int) (rd : Nat) (s : State) : Host.Outcome State Fault Refusal :=
  settle s do
    let v ← bcdDecode s.params a ss rn rd
    pure { s with rq := v }

end Sys2Proof.Machine
end

