-- ==== Sys2Proof/Machine/Bnr.lean ====
section
/-! DEFINITION. The BNR codec (43_bnr.md): ENCBNR and DECBNR. -/

namespace Sys2Proof.Machine

/-- `bnr_encode()`: the signed encoded integer, not wrapped to any width (R115). -/
def bnrEncode (p : Params) (vn : Int) (vd : Nat) (rn : Int) (rd : Nat) : Except CmdError Int := do
  let r ← validResolution rn rd
  let v ← validValue vn vd
  pure (scale p.roundMode v r)

/-- `bnr_wrap(n, w)`: the two's complement of n in a field of w bits (R116). -/
def bnrWrap (n : Int) (w : Nat) : Except CmdError Nat :=
  if n < -(2 ^ (w - 1) : Int) ∨ n > (2 ^ (w - 1) : Int) - 1 then .error (.fieldOverflow n w)
  else .ok (n % (2 ^ w : Int)).toNat

/-- `bnr_decode(raw, bc)` (R117). -/
def bnrDecode (raw : Int) (bc : Nat) (rn : Int) (rd : Nat) : Except CmdError Rat := do
  let r ← validResolution rn rd
  let raw ← validUnsigned raw
  if bc = 0 then throw .valueError
  validateBitLength raw bc
  pure ((sext bc raw : Rat) * r)

/-- ENCBNR (R118). -/
def execEncbnr (vn : Int) (vd : Nat) (rn : Int) (rd : Nat) (s : State) : Host.Outcome State Fault Refusal :=
  settle s do
    let n ← bnrEncode s.params vn vd rn rd
    putRint s n

/-- DECBNR (R119). -/
def execDecbnr (a : Int) (cnt : BitVec 6) (rn : Int) (rd : Nat) (s : State) : Host.Outcome State Fault Refusal :=
  settle s do
    let v ← bnrDecode a cnt.toNat rn rd
    pure { s with rq := v }

end Sys2Proof.Machine
end

