-- ==== Sys2Proof/Machine/Discrete.lean ====
section
/-! DEFINITION. The discrete codec (41_discrete.md): ENCDISC and DECDISC. -/

namespace Sys2Proof.Machine

/-- `disc_encode(a)` (R90). -/
def discEncode (a : Int) : Except CmdError Nat := validUnsigned a

/-- `disc_decode(raw)` (R91). -/
def discDecode (raw : Int) : Except CmdError Nat := validUnsigned raw

/-- ENCDISC (R92). -/
def execEncdisc (a : Int) (s : State) : Host.Outcome State Fault Refusal :=
  settle s do
    let raw ← discEncode a
    putRint s raw

/-- DECDISC (R93). -/
def execDecdisc (a : Int) (s : State) : Host.Outcome State Fault Refusal :=
  settle s do
    let v ← discDecode a
    putRint s v

end Sys2Proof.Machine
end

