-- ==== Sys2Proof/Machine/WordRegister.lean ====
section
/-! DEFINITION. The word register commands (44_word.md): NOP, NEW, the label, SDI and SSM setters, the bit-range sets
and get, and the parity generator. -/

namespace Sys2Proof.Machine

/-- NOP (R130). -/
def execNop (s : State) : Host.Outcome State Fault Refusal := settle s (.ok s)

/-- NEW (R132). -/
def execNew (s : State) : Host.Outcome State Fault Refusal :=
  settle s (.ok { s with w := 0x80000000#32, rint := 0, rq := 0 })

/-- SETLBL (R133). -/
def execSetlbl (a : Int) (s : State) : Host.Outcome State Fault Refusal :=
  settle s do
    if a < 0 ∨ a > 255 then throw .rangeError
    pure (commit s ((s.w &&& 0x7FFFFF00#32) ||| BitVec.ofInt 32 a))

/-- SETSDI (R134). -/
def execSetsdi (ss : BitVec 2) (s : State) : Host.Outcome State Fault Refusal :=
  settle s (.ok (commit s ((s.w &&& 0x7FFFFCFF#32) ||| (ss.setWidth 32 <<< 8))))

/-- SETSSM (R135). -/
def execSetssm (ss : BitVec 2) (s : State) : Host.Outcome State Fault Refusal :=
  settle s (.ok (commit s ((s.w &&& 0x1FFFFFFF#32) ||| (ss.setWidth 32 <<< 29))))

/-- SETDISC (R137). -/
def execSetdisc (lsb msb : BitVec 5) (a : Int) (s : State) : Host.Outcome State Fault Refusal :=
  settle s do
    let raw ← discEncode a
    validateRange lsb.toNat msb.toNat
    place s lsb.toNat msb.toNat raw

/-- SETBCD (R138). -/
def execSetbcd (lsb msb : BitVec 5) (vn : Int) (vd : Nat) (rn : Int) (rd : Nat) (s : State) : Host.Outcome State Fault Refusal :=
  settle s do
    let raw ← bcdEncode s.params vn vd rn rd
    validateRange lsb.toNat msb.toNat
    place s lsb.toNat msb.toNat raw

/-- SETBNR: the signed check of `bnrWrap` stands in place of `place`'s unsigned one (R139). -/
def execSetbnr (lsb msb : BitVec 5) (vn : Int) (vd : Nat) (rn : Int) (rd : Nat) (s : State) : Host.Outcome State Fault Refusal :=
  settle s do
    let n ← bnrEncode s.params vn vd rn rd
    validateRange lsb.toNat msb.toNat
    let raw ← bnrWrap n (width lsb.toNat msb.toNat)
    pure (commit s (merge s.w lsb.toNat msb.toNat raw))

/-- GETFLD (R140). -/
def execGetfld (lsb msb : BitVec 5) (s : State) : Host.Outcome State Fault Refusal :=
  settle s do
    validateRange lsb.toNat msb.toNat
    putRint s (fld s.w lsb.toNat msb.toNat)

/-- PARGEN: of A only the two's-complement bits `A[30:0]` count (R141). -/
def execPargen (a : Int) (s : State) : Host.Outcome State Fault Refusal :=
  settle s (putRint s (withParity (BitVec.ofInt 31 a)).toNat)

end Sys2Proof.Machine
end

