-- ==== Sys2Proof/Machine/Dispatch.lean ====
section
/-! DEFINITION. One arm per opcode: the meaning each constructor of `Instr` has. -/

namespace Sys2Proof.Machine

def exec (i : Instr) (s : State) : Host.Outcome State Fault Refusal :=
  match i with
  | .nop => Sys2Proof.Machine.execNop s
  | .new => Sys2Proof.Machine.execNew s
  | .setlbl a => Sys2Proof.Machine.execSetlbl a s
  | .setsdi ss => Sys2Proof.Machine.execSetsdi ss s
  | .setssm ss => Sys2Proof.Machine.execSetssm ss s
  | .setdisc lsb msb a => Sys2Proof.Machine.execSetdisc lsb msb a s
  | .setbcd lsb msb vn vd rn rd => Sys2Proof.Machine.execSetbcd lsb msb vn vd rn rd s
  | .setbnr lsb msb vn vd rn rd => Sys2Proof.Machine.execSetbnr lsb msb vn vd rn rd s
  | .getfld lsb msb => Sys2Proof.Machine.execGetfld lsb msb s
  | .encdisc a => Sys2Proof.Machine.execEncdisc a s
  | .encbcd vn vd rn rd => Sys2Proof.Machine.execEncbcd vn vd rn rd s
  | .encbnr vn vd rn rd => Sys2Proof.Machine.execEncbnr vn vd rn rd s
  | .decdisc a => Sys2Proof.Machine.execDecdisc a s
  | .decbcd a ss rn rd => Sys2Proof.Machine.execDecbcd a ss rn rd s
  | .decbnr a cnt rn rd => Sys2Proof.Machine.execDecbnr a cnt rn rd s
  | .pargen a => Sys2Proof.Machine.execPargen a s
  | .valrng lsb msb => Sys2Proof.Machine.execValrng lsb msb s
  | .vallen a cnt => Sys2Proof.Machine.execVallen a cnt s

end Sys2Proof.Machine
end

