-- ==== Sys2Proof/Machine/Port.lean ====
section
/-! DEFINITION. The block's inputs: what the sample at the head of the port list asks for (30_encoding.md R50,
70_reset_and_hazards.md R180). -/

namespace Sys2Proof.Machine

/-- What one sample of the inputs asks the block to do. -/
inductive Request where
  /-- No command is presented. -/
  | idle
  /-- RST is asserted. -/
  | reset
  /-- A command with an illegal header (R56). -/
  | illegal
  /-- A command that decodes. -/
  | run (i : Instr)
deriving DecidableEq, Repr

/-- The request of a command: run what it decodes to, or report it illegal (R56, R57). -/
def requestOfCommand (p : Params) (c : Command) : Request :=
  match decode p c with
  | some i => .run i
  | none => .illegal

/-- The request of the next sample. While RST is asserted no command is accepted, whatever the command port shows
(R180). With no sample left, or a sample without a command, the block waits (log entry 3). -/
def request (p : Params) : Option PortSample → Request
  | none => .idle
  | some smp => if smp.rst then .reset else match smp.command with
    | none => .idle
    | some c => requestOfCommand p c

/-- The state with the next sample taken. -/
def takeSample (s : State) : State := { s with port := s.port.tail }

/-- An illegal command: STATUS 7, ERRVAL 0, ERRW 0, nothing else (R56). -/
def execIllegal (s : State) : Host.Outcome State Fault Refusal := settle s (.error .illegal)

/-- `s` with a command presented first, RST not asserted. -/
def present (c : Command) (s : State) : State := { s with port := { rst := false, command := some c } :: s.port }

end Sys2Proof.Machine
end

