-- ==== Sys2Proof/Machine/Step.lean ====
section
/-! DEFINITION. One step: the block takes one sample of its inputs and, if a command is accepted, executes it to
completion, atomically, before the next (30_encoding.md R50, 20_memory.md R45 and R48). -/

namespace Sys2Proof.Machine

/-- One step of the block. -/
def step (s : State) : Host.Outcome State Fault Refusal :=
  match request s.params s.port.head? with
  | .idle => .next (takeSample s)
  | .reset => .next (resetRegisters (takeSample s))
  | .illegal => execIllegal (takeSample s)
  | .run i => exec i (takeSample s)

/-- `s` with the command whose bits are `w` (header first, then the slots; bits from `nbits` up are zero) presented at
the command port for the very next step. Nothing else changes: what the host had queued follows it. -/
def State.withFetchWord (s : State) (nbits w : Nat) : State := present (commandOfBits s.params.aw (w % 2 ^ nbits)) s

end Sys2Proof.Machine
end

