-- ==== Sys2Proof/Machine/Assembler.lean ====
section
/-! DEFINITION. The assembler syntax of 30_encoding.md R60 and the pseudo-instruction CLRFLD of R61, as a total function
from one line of text to the command it stands for. It is the host's tool, not the block's; `step` does not use it.
How blanks and letter cases are read is the model's own (log entry 9). -/

namespace Sys2Proof.Machine

/-! ## Numbers -/

/-- The value of a digit character, up to base 16. -/
def digitValue (ch : Char) : Option Nat :=
  if '0' ≤ ch ∧ ch ≤ '9' then some (ch.toNat - '0'.toNat)
  else if 'a' ≤ ch ∧ ch ≤ 'f' then some (ch.toNat - 'a'.toNat + 10)
  else if 'A' ≤ ch ∧ ch ≤ 'F' then some (ch.toNat - 'A'.toNat + 10)
  else none

/-- Digits to a base, most significant first, added to what was read before. -/
def readDigits (base : Nat) : Nat → List Char → Option Nat
  | acc, [] => some acc
  | acc, ch :: rest => match digitValue ch with
    | some d => if d < base then readDigits base (acc * base + d) rest else none
    | none => none

/-- A non-empty run of digits to a base. -/
def readNat (base : Nat) (cs : List Char) : Option Nat := if cs.isEmpty then none else readDigits base 0 cs

/-- A number with an optional sign, read by `read`. -/
def readSigned (read : List Char → Option Nat) : List Char → Option Int
  | '-' :: cs => (read cs).map fun n => -(n : Int)
  | cs => (read cs).map fun n => (n : Int)

/-- `ss` and `cnt`: decimal, or `0b` binary. -/
def readCount : List Char → Option Nat
  | '0' :: 'b' :: cs => readNat 2 cs
  | cs => readNat 10 cs

/-- The magnitude of `a`: decimal, `0x` hexadecimal or `0o` octal. -/
def readOperand : List Char → Option Nat
  | '0' :: 'x' :: cs => readNat 16 cs
  | '0' :: 'o' :: cs => readNat 8 cs
  | cs => readNat 10 cs

/-- Cut at the first occurrence of a character: what stands before it, and what after if it occurs. -/
def cutAt (sep : Char) : List Char → List Char × Option (List Char)
  | [] => ([], none)
  | ch :: rest =>
    if ch = sep then ([], some rest)
    else match cutAt sep rest with
      | (before, after) => (ch :: before, after)

/-- A decimal literal: its digits as an integer over 10^k, with k the digits after the point (R60). -/
def readDecimal (cs : List Char) : Option (Int × Nat) :=
  match cutAt '.' cs with
  | (_, none) => (readSigned (readNat 10) cs).map fun n => (n, 1)
  | (whole, some frac) =>
    if whole.isEmpty ∨ whole = ['-'] ∨ frac.isEmpty then none
    else (readSigned (readNat 10) (whole ++ frac)).map fun n => (n, 10 ^ frac.length)

/-- An exact rational literal as its pair (N, D): a fraction `N/D` as written, refused if D is written as 0, or a decimal
literal (R60). -/
def readRational (cs : List Char) : Option (Int × Nat) :=
  match cutAt '/' cs with
  | (_, none) => readDecimal cs
  | (num, some den) =>
    match readSigned (readNat 10) num, readNat 10 den with
    | some n, some d => if d = 0 then none else some (n, d)
    | _, _ => none

/-- A number that fits a header field of `n` bits. -/
def toField (n : Nat) (v : Nat) : Option (BitVec n) := if v < 2 ^ n then some (BitVec.ofNat n v) else none

/-! ## Lines -/

/-- Drop the blanks around an operand. -/
def trim (cs : List Char) : List Char := ((cs.dropWhile (· = ' ')).reverse.dropWhile (· = ' ')).reverse

/-- The operands of a line: what stands between its commas, at most `fuel` of them. -/
def splitOperands : Nat → List Char → List (List Char)
  | 0, _ => []
  | fuel + 1, cs =>
    match cutAt ',' cs with
    | (one, none) => [trim one]
    | (one, some rest) => trim one :: splitOperands fuel rest

/-- The mnemonic and the operands of a line. -/
def splitLine (cs : List Char) : List Char × List (List Char) :=
  match cutAt ' ' (trim cs) with
  | (name, none) => (name, [])
  | (name, some rest) => (name, splitOperands (rest.length + 1) rest)

/-- A bit position. -/
def readPosition (cs : List Char) : Option (BitVec 5) := (readNat 10 cs).bind (toField 5)
/-- An `ss` operand. -/
def readSs (cs : List Char) : Option (BitVec 2) := (readCount cs).bind (toField 2)
/-- A `cnt` operand. -/
def readCnt (cs : List Char) : Option (BitVec 6) := (readCount cs).bind (toField 6)
/-- An `a` operand. -/
def readA (cs : List Char) : Option Int := readSigned readOperand cs

/-- The instruction a line of text names, by the forms of R60 and R61. -/
def parseLine (line : String) : Option Instr :=
  match splitLine line.toList with
  | (name, ops) =>
    match String.ofList name, ops with
    | "NOP", [] => some .nop
    | "NEW", [] => some .new
    | "SETLBL", [a] => do return .setlbl (← readA a)
    | "SETSDI", [ss] => do return .setsdi (← readSs ss)
    | "SETSSM", [ss] => do return .setssm (← readSs ss)
    | "SETDISC", [l, m, a] => do return .setdisc (← readPosition l) (← readPosition m) (← readA a)
    | "SETBCD", [l, m, v, r] => do
      let v ← readRational v
      let r ← readRational r
      return .setbcd (← readPosition l) (← readPosition m) v.1 v.2 r.1 r.2
    | "SETBNR", [l, m, v, r] => do
      let v ← readRational v
      let r ← readRational r
      return .setbnr (← readPosition l) (← readPosition m) v.1 v.2 r.1 r.2
    | "GETFLD", [l, m] => do return .getfld (← readPosition l) (← readPosition m)
    | "ENCDISC", [a] => do return .encdisc (← readA a)
    | "ENCBCD", [v, r] => do
      let v ← readRational v
      let r ← readRational r
      return .encbcd v.1 v.2 r.1 r.2
    | "ENCBNR", [v, r] => do
      let v ← readRational v
      let r ← readRational r
      return .encbnr v.1 v.2 r.1 r.2
    | "DECDISC", [a] => do return .decdisc (← readA a)
    | "DECBCD", [a, ss, r] => do
      let r ← readRational r
      return .decbcd (← readA a) (← readSs ss) r.1 r.2
    | "DECBNR", [a, cnt, r] => do
      let r ← readRational r
      return .decbnr (← readA a) (← readCnt cnt) r.1 r.2
    | "PARGEN", [a] => do return .pargen (← readA a)
    | "VALRNG", [l, m] => do return .valrng (← readPosition l) (← readPosition m)
    | "VALLEN", [a, cnt] => do return .vallen (← readA a) (← readCnt cnt)
    | "CLRFLD", [l, m] => do return .setdisc (← readPosition l) (← readPosition m) 0
    | _, _ => none

/-- Assemble one line: refused if it is none of the forms, or if an operand does not fit its field or slot (R60). -/
def assemble (p : Params) (line : String) : Option Command :=
  match parseLine line with
  | some i => if i.wellFormed p then some (encode p i) else none
  | none => none

end Sys2Proof.Machine
end

