-- ==== Sys2Proof/Safety.lean ====
section
/-! DEFINITION. The words claims are stated in: what a good state is, what a placed field is, and what each
opcode may write. They are written from the spec's prose and tables, apart from the operations of `Machine/`. -/

namespace Sys2Proof.Machine

/-- `v` is in the range of RINT: any integer if RW is unbounded, else the signed RW-bit integers (R27, R81). -/
def RintHolds : ResultWidth → Int → Prop
  | .unbounded, _ => True
  | .bits n, v => -(2 ^ (n - 1) : Int) ≤ v ∧ v ≤ (2 ^ (n - 1) : Int) - 1

/-- What holds at every command boundary (10_state.md R26, R29, R30, R27, R4). -/
structure Inv (s : State) : Prop where
  /-- The word has an odd number of set bits (R26). -/
  oddWord : popcount s.w % 2 = 1
  /-- STATUS holds a code of R29: 5 and 6 are never written. -/
  legalStatus : s.status ≠ 5#3 ∧ s.status ≠ 6#3
  /-- The diagnostics are zero unless the last outcome was FieldOverflowError (R30). -/
  quietDiagnostics : s.status ≠ 2#3 → s.errval = 0 ∧ s.errw = 0
  /-- RINT holds a value of its width (R27). -/
  rintFits : RintHolds s.params.rw s.rint
  /-- The instance was built with legal parameters (R4). -/
  legalParams : s.params.Legal

/-- A legal data range (R70). -/
abbrev LegalRange (lsb msb : Nat) : Prop := 11 ≤ lsb ∧ lsb ≤ msb ∧ msb ≤ 29

/-- The unsigned value of bits lsb to msb (1-indexed) of a word, by arithmetic: bit lsb has weight 1 (R41). -/
def bitsOf (w : Word) (lsb msb : Nat) : Nat := w.toNat / 2 ^ (lsb - 1) % 2 ^ (msb - lsb + 1)

/-- Two words agree on every bit from 1 to 31 that lies outside lsb to msb. -/
def AgreeOutside (w w' : Word) (lsb msb : Nat) : Prop :=
  ∀ k, 1 ≤ k → k ≤ 31 → (k < lsb ∨ msb < k) → w'.getLsbD (k - 1) = w.getLsbD (k - 1)

/-- `s` with the outcome registers written and everything else kept (R160, R161). Code 0 is success. -/
def reporting (s : State) (code : Status) (errval : Int) (errw : Nat) : State :=
  { s with status := code, errval := errval, errw := errw }

/-- `t` is `s` after a command that completed and wrote `raw` to bits lsb to msb of W and nothing else but the parity
bit, which makes the count of set bits odd (R44, R131, R161). -/
def Placed (s t : State) (lsb msb raw : Nat) : Prop :=
  bitsOf t.w lsb msb = raw ∧ AgreeOutside s.w t.w lsb msb ∧ popcount t.w % 2 = 1 ∧
  t = reporting { s with w := t.w } 0#3 0 0

/-- The operands R are a usable resolution: a denominator, and a positive value (R75). -/
abbrev GoodResolution (rn : Int) (rd : Nat) : Prop := rd ≠ 0 ∧ 0 < rn

/-- Bits of W (1-indexed, 1 to 31) an instruction may write (R44, R58). -/
def mayWriteBit (i : Instr) (k : Nat) : Prop :=
  match i with
  | .new => True
  | .setlbl _ => 1 ≤ k ∧ k ≤ 8
  | .setsdi _ => 9 ≤ k ∧ k ≤ 10
  | .setssm _ => 30 ≤ k ∧ k ≤ 31
  | .setdisc lsb msb _ => lsb.toNat ≤ k ∧ k ≤ msb.toNat
  | .setbcd lsb msb _ _ _ _ => lsb.toNat ≤ k ∧ k ≤ msb.toNat
  | .setbnr lsb msb _ _ _ _ => lsb.toNat ≤ k ∧ k ≤ msb.toNat
  | _ => False

/-- The data field a bit-range set names: its LSB and MSB (R137 to R139). -/
def fieldOf : Instr → Option (BitVec 5 × BitVec 5)
  | .setdisc lsb msb _ => some (lsb, msb)
  | .setbcd lsb msb _ _ _ _ => some (lsb, msb)
  | .setbnr lsb msb _ _ _ _ => some (lsb, msb)
  | _ => none

/-- The opcodes whose pseudocode reads W: the setters, which keep the bits they do not write, and GETFLD. -/
def readsW (i : Instr) : Bool := i.opcode ∈ [0x02#5, 0x03#5, 0x04#5, 0x05#5, 0x06#5, 0x07#5, 0x08#5]

/-- The opcodes that write W (R58). -/
def writesW (i : Instr) : Bool := i.opcode ∈ [0x01#5, 0x02#5, 0x03#5, 0x04#5, 0x05#5, 0x06#5, 0x07#5]

/-- The opcodes that write RINT (R58). -/
def writesRint (i : Instr) : Bool := i.opcode ∈ [0x01#5, 0x08#5, 0x09#5, 0x0A#5, 0x0B#5, 0x0C#5, 0x0F#5]

/-- The opcodes that write RQ (R58). -/
def writesRq (i : Instr) : Bool := i.opcode ∈ [0x01#5, 0x0D#5, 0x0E#5]

/-- The columns of R58's operand table: which header fields and slots an opcode uses. -/
structure Usage where
  lsb : Bool := false
  msb : Bool := false
  ss : Bool := false
  cnt : Bool := false
  a : Bool := false
  v : Bool := false
  r : Bool := false
deriving DecidableEq, Repr

/-- R58's operand table, row by row. -/
def usage : Nat → Usage
  | 0x02 => { a := true }
  | 0x03 => { ss := true }
  | 0x04 => { ss := true }
  | 0x05 => { lsb := true, msb := true, a := true }
  | 0x06 => { lsb := true, msb := true, v := true, r := true }
  | 0x07 => { lsb := true, msb := true, v := true, r := true }
  | 0x08 => { lsb := true, msb := true }
  | 0x09 => { a := true }
  | 0x0A => { v := true, r := true }
  | 0x0B => { v := true, r := true }
  | 0x0C => { a := true }
  | 0x0D => { ss := true, a := true, r := true }
  | 0x0E => { cnt := true, a := true, r := true }
  | 0x0F => { a := true }
  | 0x10 => { lsb := true, msb := true }
  | 0x11 => { cnt := true, a := true }
  | _ => {}

/-- Two commands with the same opcode and the same reserved bits that agree on everything the opcode uses (R55, R56). -/
structure AgreeOnUsed (c c' : Command) : Prop where
  op : c.header.op = c'.header.op
  rsv : c.header.rsv = c'.header.rsv
  lsb : (usage c.header.op.toNat).lsb = true → c.header.lsb = c'.header.lsb
  msb : (usage c.header.op.toNat).msb = true → c.header.msb = c'.header.msb
  ss : (usage c.header.op.toNat).ss = true → c.header.ss = c'.header.ss
  cnt : (usage c.header.op.toNat).cnt = true → c.header.cnt = c'.header.cnt
  a : (usage c.header.op.toNat).a = true → c.a = c'.a
  v : (usage c.header.op.toNat).v = true → c.vn = c'.vn ∧ c.vd = c'.vd
  r : (usage c.header.op.toNat).r = true → c.rn = c'.rn ∧ c.rd = c'.rd

/-- Some nibble of a raw value has a value from 10 to 15 (R102). -/
def BadNibble (raw : Nat) : Prop := ∃ i, 9 < raw / 16 ^ i % 16

/-- The largest decimal value that fits a BCD field of `w` bits, by the closed form of R108. -/
def bcdMax (w : Nat) : Nat :=
  if w % 4 = 0 then 10 ^ (w / 4) - 1 else 2 ^ (w % 4) * 10 ^ (w / 4) - 1

end Sys2Proof.Machine
end

