-- ==== Sys2Proof/Certificates/Slice0/Obligations.lean ====
section
/-! DEFINITION. What is claimed of the model, from the numbered rules of the spec. Each claim's docstring names the rules
it formalises. -/

open Sys2Proof Sys2Proof.Machine

/-! ## Reset, NEW, output ports -/

/-- R33: after reset every register and every field of W holds the value the table gives. -/
def Obligations.ResetRegistersHoldSpecValues : Prop :=
  State.reset.w = 0x80000000#32 ∧ State.reset.rint = 0 ∧ State.reset.rq = 0 ∧ State.reset.status = 0#3 ∧
  State.reset.errval = 0 ∧ State.reset.errw = 0 ∧
  State.reset.labelO = 0#8 ∧ State.reset.sdiO = 0#2 ∧ State.reset.dataO = 0#19 ∧ State.reset.ssmO = 0#2 ∧
  State.reset.parO = 1#1

/-- R180: a step with RST asserted leaves every register at its reset value whatever command is presented with it, and
the first command presented after RST is released runs from there. That one sample is one step, and that the registers hold
these values while RST is still asserted, is the model's choice (log entries 2 and 7). -/
def Obligations.AssertedResetAcceptsNoCommand : Prop :=
  ∀ (s : State) (cmd : Option Command) (rest : List PortSample), s.port = ⟨true, cmd⟩ :: rest →
    ∃ t, step s = .next t ∧
      t.w = 0x80000000#32 ∧ t.rint = 0 ∧ t.rq = 0 ∧ t.status = 0#3 ∧ t.errval = 0 ∧ t.errw = 0 ∧
      t.params = s.params ∧ t.port = rest ∧
      ∀ (c : Command) (i : Instr) (rest' : List PortSample), rest = ⟨false, some c⟩ :: rest' →
        decode s.params c = some i →
        step t = exec i { State.reset with params := s.params, port := rest' }

/-- R132, R181: NEW leaves, from any state, the registers that reset leaves; and RST in its place leaves the same state
(the step with RST is the model's form, log entries 2 and 7). -/
def Obligations.NewLeavesTheResetState : Prop :=
  ∀ (s : State) (cmd : Option Command),
    exec .new s = .next { State.reset with params := s.params, port := s.port } ∧
    step { s with port := ⟨true, cmd⟩ :: s.port } = exec .new s

/-- R31: each output port shows the bits of W, or the register, that the table names. -/
def Obligations.OutputPortsShowTheState : Prop :=
  ∀ s : State,
    s.wordO = s.w ∧ s.labelO.toNat = bitsOf s.w 1 8 ∧ s.sdiO.toNat = bitsOf s.w 9 10 ∧
    s.dataO.toNat = bitsOf s.w 11 29 ∧ s.ssmO.toNat = bitsOf s.w 30 31 ∧ s.parO.toNat = bitsOf s.w 32 32 ∧
    s.rintO = s.rint ∧ s.rqO = s.rq ∧ s.statusO = s.status ∧ s.errvalO = s.errval ∧ s.errwO = s.errw

/-! ## Encoding -/

/-- R51, R58: headers of the spec's test vectors, read by the table, decode to the command they stand for. -/
def Obligations.SpecWordsDecode : Prop :=
  decode .defaults ⟨0x00003165#32, 6, 0, 0, 0, 0⟩ = some (.setdisc 11 12 6) ∧
  decode .defaults ⟨0x000075A7#32, 0, 90, 1, 43945313, 1000000000⟩ = some (.setbnr 13 29 90 1 43945313 1000000000) ∧
  decode .defaults ⟨0x00018004#32, 0, 0, 0, 0, 0⟩ = some (.setssm 3) ∧
  decode .defaults ⟨0x0022000E#32, 0x800, 0, 0, 1, 1⟩ = some (.decbnr 0x800 17 1 1) ∧
  decode .defaults ⟨0x0001800D#32, 0x1215, 0, 0, 1, 10⟩ = some (.decbcd 0x1215 3 1 10) ∧
  decode .defaults ⟨0x00000009#32, 2 ^ 64 - 1, 0, 0, 0, 0⟩ = some (.encdisc (-1)) ∧
  decode .defaults ⟨0x00000012#32, 0, 0, 0, 0, 0⟩ = none ∧
  decode .defaults ⟨0x80007566#32, 0, 0, 0, 0, 0⟩ = none

/-- R53, R7: a signed slot reads its port bits in two's complement, an unsigned slot as they stand, at every legal AW. -/
def Obligations.SlotsReadTheirPortBits : Prop :=
  ∀ (p : Params) (port : Nat), p.Legal → port < 2 ^ p.aw →
    signedSlot p port = (if port < 2 ^ (p.aw - 1) then (port : Int) else (port : Int) - 2 ^ p.aw) ∧
    unsignedSlot p port = port

/-- R51, R53, R58: decoding what the encoder writes for a well-formed instruction gives the instruction back. -/
def Obligations.DecodeEncodeAgree : Prop :=
  ∀ (p : Params) (i : Instr), p.Legal → i.wellFormed p = true → decode p (encode p i) = some i

/-- R51, R53, R55: what the decoder reads is well formed, and re-encoding it gives a command that decodes to the same
instruction. -/
def Obligations.DecoderOutputReencodes : Prop :=
  ∀ (p : Params) (c : Command) (i : Instr), p.Legal → decode p c = some i →
    i.wellFormed p = true ∧ decode p (encode p i) = some i

/-- R57: on every header, the table's mask and match decide: the header selects the one opcode it matches, or is
illegal. -/
def Obligations.HeaderSelectsOneOpcode : Prop :=
  ∀ (p : Params) (c : Command),
    (decode p c).map (fun i => i.opcode.toNat) =
      if (c.header &&& 0xFF80001F#32).toNat < 0x12 then some (c.header &&& 0xFF80001F#32).toNat else none

/-- R55: header fields and operand slots an opcode does not use change nothing about the step. -/
def Obligations.UnusedFieldsAreIgnored : Prop :=
  ∀ (c c' : Command) (s : State), AgreeOnUsed c c' → step (present c s) = step (present c' s)

/-! ## Steps -/

/-- R50, R48: when the command presented first decodes, the step is that command, run to completion on the state with
that sample taken off the port. -/
def Obligations.StepRunsTheDecodedCommand : Prop :=
  ∀ (s : State) (c : Command) (i : Instr) (rest : List PortSample),
    s.port = ⟨false, some c⟩ :: rest → decode s.params c = some i → step s = exec i { s with port := rest }

/-- R56: a header with RSV not zero, or with an opcode from 0x12 up, writes STATUS 7, ERRVAL 0 and ERRW 0, and changes
nothing else. -/
def Obligations.IllegalHeaderReportsIllegal : Prop :=
  ∀ (s : State) (c : Command) (rest : List PortSample), s.port = ⟨false, some c⟩ :: rest →
    (c.header.rsv ≠ 0#9 ∨ 0x12 ≤ c.header.op.toNat) →
    step s = .next (reporting { s with port := rest } 7#3 0 0)

/-- THE MODEL'S CHOICE (log entry 3), from R28 and R50: with no command presented, the block waits and keeps every
register. -/
def Obligations.WaitingBlockKeepsItsRegisters : Prop :=
  ∀ s : State, (s.port = [] → step s = .next s) ∧
    ∀ rest, s.port = ⟨false, none⟩ :: rest → step s = .next { s with port := rest }

/-- R188, R160: every step, on every state, answers a next state; the block never stops. -/
def Obligations.EveryStepAnswersNext : Prop := ∀ s : State, ∃ t, step s = .next t

/-- R26, R33: the state after reset meets the invariant. -/
def Obligations.InvariantHoldsAtReset : Prop := Inv State.reset

/-- R26, R29, R30, R27, R4: every step keeps the invariant: odd parity of W, a legal STATUS, quiet diagnostics, RINT in
its range, legal parameters. -/
def Obligations.EveryStepKeepsInvariant : Prop := ∀ s t : State, Inv s → step s = .next t → Inv t

/-- R4, R48: a step never changes the parameters, and takes exactly the first sample. -/
def Obligations.StepKeepsParametersTakesOneSample : Prop :=
  ∀ s t : State, step s = .next t → t.params = s.params ∧ t.port = s.port.tail

/-! ## Rules over every command -/

/-- R32, R34, R24: what a command does depends on nothing but its operands, the parameters and, for the commands that
read it, W: not on the results, the status, the diagnostics or the commands before and after it. -/
def Obligations.CommandDependsOnlyOnWordAndOperands : Prop :=
  ∀ (i : Instr) (s s' t t' : State), s.params = s'.params → (readsW i = true → s.w = s'.w) →
    exec i s = .next t → exec i s' = .next t' →
    t.status = t'.status ∧ t.errval = t'.errval ∧ t.errw = t'.errw ∧
    (t.status = 0#3 → (writesW i = true → t.w = t'.w) ∧ (writesRint i = true → t.rint = t'.rint) ∧
      (writesRq i = true → t.rq = t'.rq))

/-- R160, R45, R164: a command that reports an error changes nothing but STATUS, ERRVAL and ERRW. -/
def Obligations.AbortChangesOnlyTheOutcomeRegisters : Prop :=
  ∀ (i : Instr) (s t : State), exec i s = .next t → t.status ≠ 0#3 →
    t = reporting s t.status t.errval t.errw ∧ (t.status ≠ 2#3 → t.errval = 0 ∧ t.errw = 0)

/-- R161, R29, R30: every decoded command completes or aborts with one of the codes 0 to 4, and leaves ERRVAL and ERRW
zero unless the code is 2. -/
def Obligations.EveryCommandReportsAnOutcome : Prop :=
  ∀ (i : Instr) (s : State), ∃ t, exec i s = .next t ∧ t.status.toNat ≤ 4 ∧
    (t.status ≠ 2#3 → t.errval = 0 ∧ t.errw = 0)

/-- R58 (its "writes" column): only the opcodes the table names write W, RINT or RQ; no command touches the parameters
or the inputs to come. -/
def Obligations.OnlyTheNamedOpcodesWrite : Prop :=
  ∀ (i : Instr) (s t : State), exec i s = .next t →
    (writesW i = false → t.w = s.w) ∧ (writesRint i = false → t.rint = s.rint) ∧ (writesRq i = false → t.rq = s.rq) ∧
    t.params = s.params ∧ t.port = s.port

/-- R44: of bits 1 to 31, a command changes only those it names: its data bits, the label, the SDI or the SSM. -/
def Obligations.CommandsChangeOnlyTheirBits : Prop :=
  ∀ (i : Instr) (s t : State) (k : Nat), exec i s = .next t → 1 ≤ k → k ≤ 31 → ¬ mayWriteBit i k →
    t.w.getLsbD (k - 1) = s.w.getLsbD (k - 1)

/-- R25, R131: after every command that writes W, bit 32 is the odd-parity bit of bits 1 to 31, whatever it was
before. -/
def Obligations.ParityIsRecomputedOnEveryWrite : Prop :=
  ∀ (i : Instr) (s t : State), exec i s = .next t → writesW i = true → t.status = 0#3 →
    t.w.extractLsb' 31 1 = par (t.w.extractLsb' 0 31)

/-- R46: a command issued twice in a row leaves the state that issuing it once leaves. -/
def Obligations.RepeatingACommandChangesNothing : Prop :=
  ∀ (i : Instr) (s t : State), exec i s = .next t → exec i t = .next t

/-! ## Word register commands -/

/-- R130: NOP completes and changes nothing but the outcome registers. -/
def Obligations.NopOnlyClearsTheOutcome : Prop := ∀ s : State, exec .nop s = .next (reporting s 0#3 0 0)

/-- R133: SETLBL writes a label from 0 to 255 to bits 1 to 8, and reports RangeError for any other. -/
def Obligations.SetlblWritesTheLabel : Prop :=
  ∀ (a : Int) (s : State),
    (a < 0 ∨ 255 < a → exec (.setlbl a) s = .next (reporting s 1#3 0 0)) ∧
    (0 ≤ a ∧ a ≤ 255 → ∃ t, exec (.setlbl a) s = .next t ∧ Placed s t 1 8 a.toNat)

/-- R134, R135: SETSDI writes bits 9 and 10, SETSSM bits 30 and 31; neither can fail. -/
def Obligations.SetsdiAndSetssmWriteTheirFields : Prop :=
  ∀ (ss : BitVec 2) (s : State),
    (∃ t, exec (.setsdi ss) s = .next t ∧ Placed s t 9 10 ss.toNat) ∧
    (∃ t, exec (.setssm ss) s = .next t ∧ Placed s t 30 31 ss.toNat)

/-- R137, R136, R163: SETDISC places A in bits LSB to MSB; a negative A, then an illegal range, then a value too wide
reports its error. -/
def Obligations.SetdiscPlacesOrReports : Prop :=
  ∀ (lsb msb : BitVec 5) (a : Int) (s : State),
    (a < 0 → exec (.setdisc lsb msb a) s = .next (reporting s 3#3 0 0)) ∧
    (0 ≤ a → ¬ LegalRange lsb.toNat msb.toNat → exec (.setdisc lsb msb a) s = .next (reporting s 1#3 0 0)) ∧
    (0 ≤ a → LegalRange lsb.toNat msb.toNat → 2 ^ (msb.toNat - lsb.toNat + 1) ≤ a.toNat →
      exec (.setdisc lsb msb a) s = .next (reporting s 2#3 a (msb.toNat - lsb.toNat + 1))) ∧
    (0 ≤ a → LegalRange lsb.toNat msb.toNat → a.toNat < 2 ^ (msb.toNat - lsb.toNat + 1) →
      ∃ t, exec (.setdisc lsb msb a) s = .next t ∧ Placed s t lsb.toNat msb.toNat a.toNat)

/-- R138, R103, R136, R163: SETBCD places the packed digits of round(V / R); a bad operand, then an illegal range, then a
packed value too wide reports its error. -/
def Obligations.SetbcdPlacesOrReports : Prop :=
  ∀ (lsb msb : BitVec 5) (vn : Int) (vd : Nat) (rn : Int) (rd : Nat) (s : State) (raw : Nat),
    raw = bcdPack (scale s.params.roundMode (q vn vd) (q rn rd)).toNat →
    (¬ (GoodResolution rn rd ∧ vd ≠ 0 ∧ 0 ≤ vn) →
      exec (.setbcd lsb msb vn vd rn rd) s = .next (reporting s 3#3 0 0)) ∧
    (GoodResolution rn rd ∧ vd ≠ 0 ∧ 0 ≤ vn → ¬ LegalRange lsb.toNat msb.toNat →
      exec (.setbcd lsb msb vn vd rn rd) s = .next (reporting s 1#3 0 0)) ∧
    (GoodResolution rn rd ∧ vd ≠ 0 ∧ 0 ≤ vn → LegalRange lsb.toNat msb.toNat →
      2 ^ (msb.toNat - lsb.toNat + 1) ≤ raw →
      exec (.setbcd lsb msb vn vd rn rd) s = .next (reporting s 2#3 raw (msb.toNat - lsb.toNat + 1))) ∧
    (GoodResolution rn rd ∧ vd ≠ 0 ∧ 0 ≤ vn → LegalRange lsb.toNat msb.toNat →
      raw < 2 ^ (msb.toNat - lsb.toNat + 1) →
      ∃ t, exec (.setbcd lsb msb vn vd rn rd) s = .next t ∧ Placed s t lsb.toNat msb.toNat raw)

/-- R139, R115, R116, R163: SETBNR places the two's complement of n = round(V / R); a bad operand, then an illegal range,
then an n outside the field's signed range reports its error. -/
def Obligations.SetbnrPlacesOrReports : Prop :=
  ∀ (lsb msb : BitVec 5) (vn : Int) (vd : Nat) (rn : Int) (rd : Nat) (s : State) (n : Int),
    n = scale s.params.roundMode (q vn vd) (q rn rd) →
    (¬ (GoodResolution rn rd ∧ vd ≠ 0) →
      exec (.setbnr lsb msb vn vd rn rd) s = .next (reporting s 3#3 0 0)) ∧
    (GoodResolution rn rd ∧ vd ≠ 0 → ¬ LegalRange lsb.toNat msb.toNat →
      exec (.setbnr lsb msb vn vd rn rd) s = .next (reporting s 1#3 0 0)) ∧
    (GoodResolution rn rd ∧ vd ≠ 0 → LegalRange lsb.toNat msb.toNat →
      (n < -(2 ^ (msb.toNat - lsb.toNat) : Int) ∨ (2 ^ (msb.toNat - lsb.toNat) : Int) ≤ n) →
      exec (.setbnr lsb msb vn vd rn rd) s = .next (reporting s 2#3 n (msb.toNat - lsb.toNat + 1))) ∧
    (GoodResolution rn rd ∧ vd ≠ 0 → LegalRange lsb.toNat msb.toNat →
      -(2 ^ (msb.toNat - lsb.toNat) : Int) ≤ n → n < (2 ^ (msb.toNat - lsb.toNat) : Int) →
      ∃ t, exec (.setbnr lsb msb vn vd rn rd) s = .next t ∧
        Placed s t lsb.toNat msb.toNat (n % 2 ^ (msb.toNat - lsb.toNat + 1)).toNat)

/-- R140: GETFLD writes the unsigned value of bits LSB to MSB to RINT, and reports RangeError for an illegal range. -/
def Obligations.GetfldReadsTheField : Prop :=
  ∀ (lsb msb : BitVec 5) (s : State),
    (¬ LegalRange lsb.toNat msb.toNat → exec (.getfld lsb msb) s = .next (reporting s 1#3 0 0)) ∧
    (LegalRange lsb.toNat msb.toNat → s.params.Legal →
      exec (.getfld lsb msb) s = .next (reporting { s with rint := bitsOf s.w lsb.toNat msb.toNat } 0#3 0 0))

/-- R141, R76: PARGEN writes to RINT a 32-bit word whose low 31 bits are A's and whose count of set bits is odd. -/
def Obligations.PargenCompletesTheParity : Prop :=
  ∀ (a : Int) (s : State), s.params.Legal →
    ∃ w : Word, exec (.pargen a) s = .next (reporting { s with rint := w.toNat } 0#3 0 0) ∧
      (bitsOf w 1 31 : Int) = a % 2 ^ 31 ∧ popcount w % 2 = 1

/-! ## Utilities and codecs -/

/-- R79, R70: VALRNG reports OK exactly for 11 ≤ LSB ≤ MSB ≤ 29, else RangeError. -/
def Obligations.ValrngReportsLegality : Prop :=
  ∀ (lsb msb : BitVec 5) (s : State),
    (11 ≤ lsb.toNat ∧ lsb.toNat ≤ msb.toNat ∧ msb.toNat ≤ 29 →
      exec (.valrng lsb msb) s = .next (reporting s 0#3 0 0)) ∧
    (¬ (11 ≤ lsb.toNat ∧ lsb.toNat ≤ msb.toNat ∧ msb.toNat ≤ 29) →
      exec (.valrng lsb msb) s = .next (reporting s 1#3 0 0))

/-- R80, R74: VALLEN reports ValueError for a negative A, FieldOverflowError(A, CNT) for A ≥ 2^CNT, else OK. -/
def Obligations.VallenReportsFit : Prop :=
  ∀ (a : Int) (cnt : BitVec 6) (s : State),
    (a < 0 → exec (.vallen a cnt) s = .next (reporting s 3#3 0 0)) ∧
    (0 ≤ a → (2 ^ cnt.toNat : Int) ≤ a → exec (.vallen a cnt) s = .next (reporting s 2#3 a cnt.toNat)) ∧
    (0 ≤ a → a < (2 ^ cnt.toNat : Int) → exec (.vallen a cnt) s = .next (reporting s 0#3 0 0))

/-- R92, R93, R90, R91, R81: ENCDISC and DECDISC write a non-negative A to RINT unchanged; a negative A is a ValueError,
and one that a bounded RINT cannot hold a FieldOverflowError(A, RW). -/
def Obligations.DiscreteCodecPassesTheValue : Prop :=
  ∀ (i : Int → Instr), i = .encdisc ∨ i = .decdisc → ∀ (a : Int) (s : State),
    (a < 0 → exec (i a) s = .next (reporting s 3#3 0 0)) ∧
    (0 ≤ a → RintHolds s.params.rw a → exec (i a) s = .next (reporting { s with rint := a } 0#3 0 0)) ∧
    (∀ n, 0 ≤ a → s.params.rw = .bits n → ¬ RintHolds s.params.rw a →
      exec (i a) s = .next (reporting s 2#3 a n))

/-- R104, R103, R81: ENCBCD writes the packed digits of round(V / R) to RINT; a bad operand is a ValueError, and a value
that a bounded RINT cannot hold a FieldOverflowError. -/
def Obligations.EncbcdPacksTheScaledValue : Prop :=
  ∀ (vn : Int) (vd : Nat) (rn : Int) (rd : Nat) (s : State) (raw : Nat),
    raw = bcdPack (scale s.params.roundMode (q vn vd) (q rn rd)).toNat →
    (¬ (GoodResolution rn rd ∧ vd ≠ 0 ∧ 0 ≤ vn) → exec (.encbcd vn vd rn rd) s = .next (reporting s 3#3 0 0)) ∧
    (GoodResolution rn rd ∧ vd ≠ 0 ∧ 0 ≤ vn → RintHolds s.params.rw raw →
      exec (.encbcd vn vd rn rd) s = .next (reporting { s with rint := raw } 0#3 0 0)) ∧
    (∀ n, GoodResolution rn rd ∧ vd ≠ 0 ∧ 0 ≤ vn → s.params.rw = .bits n → ¬ RintHolds s.params.rw raw →
      exec (.encbcd vn vd rn rd) s = .next (reporting s 2#3 raw n))

/-- R118, R115, R81: ENCBNR writes the signed integer round(V / R) to RINT, unwrapped; a bad operand is a ValueError, and
a value that a bounded RINT cannot hold a FieldOverflowError. -/
def Obligations.EncbnrScalesTheValue : Prop :=
  ∀ (vn : Int) (vd : Nat) (rn : Int) (rd : Nat) (s : State) (n : Int),
    n = scale s.params.roundMode (q vn vd) (q rn rd) →
    (¬ (GoodResolution rn rd ∧ vd ≠ 0) → exec (.encbnr vn vd rn rd) s = .next (reporting s 3#3 0 0)) ∧
    (GoodResolution rn rd ∧ vd ≠ 0 → RintHolds s.params.rw n →
      exec (.encbnr vn vd rn rd) s = .next (reporting { s with rint := n } 0#3 0 0)) ∧
    (∀ k, GoodResolution rn rd ∧ vd ≠ 0 → s.params.rw = .bits k → ¬ RintHolds s.params.rw n →
      exec (.encbnr vn vd rn rd) s = .next (reporting s 2#3 n k))

/-- R107, R105, R106, R102: DECBCD of the packed digits of n writes n * R to RQ, negated for the designated SSM code. A bad
operand is a ValueError. A nibble above 9 is a MalformedBCDError under ERROR; under WEIGHTED_SUM the command completes,
and nothing is claimed of the value. -/
def Obligations.DecbcdRecoversTheDigits : Prop :=
  ∀ (a : Int) (ss : BitVec 2) (rn : Int) (rd : Nat) (s : State),
    (¬ GoodResolution rn rd ∨ a < 0 → exec (.decbcd a ss rn rd) s = .next (reporting s 3#3 0 0)) ∧
    (∀ n : Nat, GoodResolution rn rd → a = bcdPack n →
      exec (.decbcd a ss rn rd) s = .next (reporting
        { s with rq := if ss = s.params.bcdNegSsm then -((n : Rat) * q rn rd) else (n : Rat) * q rn rd } 0#3 0 0)) ∧
    (GoodResolution rn rd → 0 ≤ a → BadNibble a.toNat → s.params.bcdMalformed = .error →
      exec (.decbcd a ss rn rd) s = .next (reporting s 4#3 0 0)) ∧
    (GoodResolution rn rd → 0 ≤ a → BadNibble a.toNat → s.params.bcdMalformed = .weightedSum →
      ∃ v, exec (.decbcd a ss rn rd) s = .next (reporting { s with rq := v } 0#3 0 0))

/-- R119, R117: DECBNR reads A as a CNT-bit two's-complement integer and writes its product with R to RQ; a bad operand or
CNT = 0 is a ValueError, and A ≥ 2^CNT a FieldOverflowError(A, CNT). -/
def Obligations.DecbnrSignExtendsAndScales : Prop :=
  ∀ (a : Int) (cnt : BitVec 6) (rn : Int) (rd : Nat) (s : State),
    (¬ GoodResolution rn rd ∨ a < 0 ∨ cnt = 0 → exec (.decbnr a cnt rn rd) s = .next (reporting s 3#3 0 0)) ∧
    (GoodResolution rn rd → cnt ≠ 0 → (2 ^ cnt.toNat : Int) ≤ a →
      exec (.decbnr a cnt rn rd) s = .next (reporting s 2#3 a cnt.toNat)) ∧
    (GoodResolution rn rd → cnt ≠ 0 → 0 ≤ a → a < 2 ^ (cnt.toNat - 1) →
      exec (.decbnr a cnt rn rd) s = .next (reporting { s with rq := (a : Rat) * q rn rd } 0#3 0 0)) ∧
    (GoodResolution rn rd → cnt ≠ 0 → 2 ^ (cnt.toNat - 1) ≤ a → a < 2 ^ cnt.toNat →
      exec (.decbnr a cnt rn rd) s = .next (reporting { s with rq := ((a - 2 ^ cnt.toNat : Int) : Rat) * q rn rd } 0#3 0 0))

/-! ## Properties of the codecs -/

/-- R54: a command depends on V and R only through their rational values. -/
def Obligations.OnlyTheRationalValueCounts : Prop :=
  ∀ (vn vn' rn rn' : Int) (vd vd' rd rd' : Nat), vd ≠ 0 → vd' ≠ 0 → rd ≠ 0 → rd' ≠ 0 →
    q vn vd = q vn' vd' → q rn rd = q rn' rd' →
    ∀ (lsb msb : BitVec 5) (a : Int) (ss : BitVec 2) (cnt : BitVec 6) (s : State),
      exec (.setbcd lsb msb vn vd rn rd) s = exec (.setbcd lsb msb vn' vd' rn' rd') s ∧
      exec (.setbnr lsb msb vn vd rn rd) s = exec (.setbnr lsb msb vn' vd' rn' rd') s ∧
      exec (.encbcd vn vd rn rd) s = exec (.encbcd vn' vd' rn' rd') s ∧
      exec (.encbnr vn vd rn rd) s = exec (.encbnr vn' vd' rn' rd') s ∧
      exec (.decbcd a ss rn rd) s = exec (.decbcd a ss rn' rd') s ∧
      exec (.decbnr a cnt rn rd) s = exec (.decbnr a cnt rn' rd') s

/-- R72: NEAREST_AWAY gives a nearest integer, and at a tie the one farther from zero; TOWARD_ZERO gives the integer within
1 of x that is no farther from zero and not on its other side. -/
def Obligations.RoundingFollowsTheMode : Prop :=
  ∀ x : Rat,
    |(roundQ .nearestAway x : Rat) - x| ≤ 1 / 2 ∧
    (|(roundQ .nearestAway x : Rat) - x| = 1 / 2 → |x| < |(roundQ .nearestAway x : Rat)|) ∧
    |x - (roundQ .towardZero x : Rat)| < 1 ∧ |(roundQ .towardZero x : Rat)| ≤ |x| ∧
    0 ≤ x * (roundQ .towardZero x : Rat)

/-- R100, R101: nibble i of a packed value is decimal digit i, unpacking under either policy gives the value back, and the
raw values without a nibble above 9 are exactly the packed ones. -/
def Obligations.BcdPackingIsDigitwise : Prop :=
  (∀ n i : Nat, bcdPack n / 16 ^ i % 16 = n / 10 ^ i % 10) ∧
  (∀ (m : MalformedPolicy) (n : Nat), bcdUnpack m (bcdPack n) = .ok n) ∧
  (∀ raw : Nat, ¬ BadNibble raw ↔ ∃ n, raw = bcdPack n)

/-- R108: a decimal value fits a BCD field of w bits exactly when it is at most the closed form of R108. -/
def Obligations.BcdFieldCapacity : Prop :=
  (∀ w n : Nat, 1 ≤ w → w ≤ 19 → (bcdPack n < 2 ^ w ↔ n ≤ bcdMax w)) ∧
  bcdMax 19 = 79999 ∧ bcdMax 16 = 9999 ∧ bcdMax 13 = 1999 ∧ bcdMax 1 = 1 ∧ bcdPack 79999 = 0x79999

/-- R116: wrapping accepts exactly the signed w-bit integers, gives n modulo 2^w, and sign extension undoes it. -/
def Obligations.BnrWrapIsTwosComplement : Prop :=
  ∀ (n : Int) (w : Nat), 1 ≤ w → w ≤ 19 →
    ((n < -(2 ^ (w - 1) : Int) ∨ (2 ^ (w - 1) : Int) - 1 < n) → bnrWrap n w = .error (.fieldOverflow n w)) ∧
    (-(2 ^ (w - 1) : Int) ≤ n → n ≤ (2 ^ (w - 1) : Int) - 1 →
      ∃ raw : Nat, bnrWrap n w = .ok raw ∧ raw < 2 ^ w ∧ (raw : Int) = n % 2 ^ w ∧ sext w raw = n)

/-- R121: the values a BNR field of w bits can stand for are exactly the n * r with n a signed w-bit integer. -/
def Obligations.BnrFieldRange : Prop :=
  ∀ (w : Nat) (r x : Rat), 1 ≤ w → w ≤ 19 →
    ((∃ raw : Nat, raw < 2 ^ w ∧ x = (sext w raw : Rat) * r) ↔
      ∃ n : Int, -(2 ^ (w - 1) : Int) ≤ n ∧ n ≤ (2 ^ (w - 1) : Int) - 1 ∧ x = (n : Rat) * r)

/-- R93, R137, R140: a discrete value that was placed is read back and decodes to itself. -/
def Obligations.DiscreteRoundTrip : Prop :=
  ∀ (lsb msb : BitVec 5) (a : Int) (s t : State), s.params.Legal →
    exec (.setdisc lsb msb a) s = .next t → t.status = 0#3 →
    ∃ u v, exec (.getfld lsb msb) t = .next u ∧ u.status = 0#3 ∧ u.rint = a ∧
      exec (.decdisc u.rint) u = .next v ∧ v.status = 0#3 ∧ v.rint = a

/-- R109: a BCD value that was placed is read back and, with an SSM code other than the negative one, decodes to
round(v / r) * r, within the bound of the rounding mode. -/
def Obligations.BcdRoundTrip : Prop :=
  ∀ (lsb msb : BitVec 5) (vn : Int) (vd : Nat) (rn : Int) (rd : Nat) (ss : BitVec 2) (s t : State), s.params.Legal →
    exec (.setbcd lsb msb vn vd rn rd) s = .next t → t.status = 0#3 → ss ≠ s.params.bcdNegSsm →
    ∃ u v, exec (.getfld lsb msb) t = .next u ∧ exec (.decbcd u.rint ss rn rd) u = .next v ∧ v.status = 0#3 ∧
      v.rq = (scale s.params.roundMode (q vn vd) (q rn rd) : Rat) * q rn rd ∧
      (s.params.roundMode = .nearestAway → |v.rq - q vn vd| ≤ q rn rd / 2) ∧
      (s.params.roundMode = .towardZero → 0 ≤ q vn vd - v.rq ∧ q vn vd - v.rq < q rn rd)

/-- R122: a BNR value that was placed is read back and, with CNT the field's width, decodes to round(v / r) * r, within the
bound of the rounding mode. -/
def Obligations.BnrRoundTrip : Prop :=
  ∀ (lsb msb : BitVec 5) (vn : Int) (vd : Nat) (rn : Int) (rd : Nat) (cnt : BitVec 6) (s t : State), s.params.Legal →
    exec (.setbnr lsb msb vn vd rn rd) s = .next t → t.status = 0#3 → cnt.toNat = msb.toNat - lsb.toNat + 1 →
    ∃ u v, exec (.getfld lsb msb) t = .next u ∧ exec (.decbnr u.rint cnt rn rd) u = .next v ∧ v.status = 0#3 ∧
      v.rq = (scale s.params.roundMode (q vn vd) (q rn rd) : Rat) * q rn rd ∧
      (s.params.roundMode = .nearestAway → |v.rq - q vn vd| ≤ q rn rd / 2) ∧
      (s.params.roundMode = .towardZero → |v.rq - q vn vd| < q rn rd ∧ |v.rq| ≤ |q vn vd|)

/-- R142: a bit-range set does not disturb a field it does not overlap: a get of that field answers the same before and
after. -/
def Obligations.DisjointFieldsAreIndependent : Prop :=
  ∀ (i : Instr) (lsb msb lsb' msb' : BitVec 5) (s t : State), s.params.Legal → fieldOf i = some (lsb, msb) →
    exec i s = .next t → LegalRange lsb'.toNat msb'.toNat → (msb'.toNat < lsb.toNat ∨ msb.toNat < lsb'.toNat) →
    ∃ u u', exec (.getfld lsb' msb') s = .next u ∧ exec (.getfld lsb' msb') t = .next u' ∧
      u.status = 0#3 ∧ u'.status = 0#3 ∧ u'.rint = u.rint

/-- R182: the order of two setters that write no bit in common does not matter: if both complete in one order, both
complete in the other, and the final state is the same. -/
def Obligations.DisjointSettersCommute : Prop :=
  ∀ (i j : Instr) (s t u : State), writesW i = true → writesW j = true → i ≠ .new → j ≠ .new →
    (∀ k, ¬ (mayWriteBit i k ∧ mayWriteBit j k)) →
    exec i s = .next t → t.status = 0#3 → exec j t = .next u → u.status = 0#3 →
    ∃ t', exec j s = .next t' ∧ t'.status = 0#3 ∧ exec i t' = .next u

/-! ## Assembler -/

/-- R60, R61: lines of the spec's vectors assemble to the headers and slots the spec gives; a denominator written as 0 and
an operand that does not fit are refused. -/
def Obligations.SpecLinesAssemble : Prop :=
  assemble .defaults "SETBCD  11, 29, 121.5, 0.1" = some ⟨0x00007566#32, 0, 1215, 10, 1, 10⟩ ∧
  assemble .defaults "SETLBL  0o377" = some ⟨0x00000002#32, 255, 0, 0, 0, 0⟩ ∧
  assemble .defaults "DECBNR  0x800, 17, 0.043945313" = some ⟨0x0022000E#32, 0x800, 0, 0, 43945313, 1000000000⟩ ∧
  assemble .defaults "SETSSM  0b11" = some ⟨0x00018004#32, 0, 0, 0, 0, 0⟩ ∧
  assemble .defaults "CLRFLD  11, 14" = assemble .defaults "SETDISC 11, 14, 0" ∧
  assemble .defaults "CLRFLD  11, 14" = some ⟨0x00003965#32, 0, 0, 0, 0, 0⟩ ∧
  assemble .defaults "ENCBCD  1, 1/0" = none ∧
  assemble .defaults "SETLBL  0x8000000000000000" = none

/-- R60: a decimal literal with k digits after the point assembles to its digits as an integer over 10^k, with the sign in
front if there is one. -/
def Obligations.DecimalLiteralIsDigitsOverPowerOfTen : Prop :=
  ∀ (whole frac : List Char) (n : Nat), whole ≠ [] → frac ≠ [] → readNat 10 (whole ++ frac) = some n →
    readRational (whole ++ '.' :: frac) = some ((n : Int), 10 ^ frac.length) ∧
    readRational ('-' :: (whole ++ '.' :: frac)) = some (-(n : Int), 10 ^ frac.length)
end

