-- ==== Sys2Proof/Laws/State.lean ====
section
/-! SUPPORT. One lemma per field of `State` for each named update, so that no proof unfolds a record update. -/

namespace Sys2Proof.Machine

/-! ## `complete` -/

@[simp] theorem complete_w (t : State) : (complete t).w = t.w := rfl
@[simp] theorem complete_rint (t : State) : (complete t).rint = t.rint := rfl
@[simp] theorem complete_rq (t : State) : (complete t).rq = t.rq := rfl
@[simp] theorem complete_status (t : State) : (complete t).status = 0#3 := rfl
@[simp] theorem complete_errval (t : State) : (complete t).errval = 0 := rfl
@[simp] theorem complete_errw (t : State) : (complete t).errw = 0 := rfl
@[simp] theorem complete_params (t : State) : (complete t).params = t.params := rfl
@[simp] theorem complete_port (t : State) : (complete t).port = t.port := rfl

/-! ## `abort` -/

@[simp] theorem abort_w (e : CmdError) (s : State) : (abort e s).w = s.w := rfl
@[simp] theorem abort_rint (e : CmdError) (s : State) : (abort e s).rint = s.rint := rfl
@[simp] theorem abort_rq (e : CmdError) (s : State) : (abort e s).rq = s.rq := rfl
@[simp] theorem abort_status (e : CmdError) (s : State) : (abort e s).status = e.code := rfl
@[simp] theorem abort_errval (e : CmdError) (s : State) : (abort e s).errval = e.errval := rfl
@[simp] theorem abort_errw (e : CmdError) (s : State) : (abort e s).errw = e.errw := rfl
@[simp] theorem abort_params (e : CmdError) (s : State) : (abort e s).params = s.params := rfl
@[simp] theorem abort_port (e : CmdError) (s : State) : (abort e s).port = s.port := rfl

/-! ## `commit` -/

@[simp] theorem commit_w (s : State) (w : Word) : (commit s w).w = withParity (w.extractLsb' 0 31) := rfl
@[simp] theorem commit_rint (s : State) (w : Word) : (commit s w).rint = s.rint := rfl
@[simp] theorem commit_rq (s : State) (w : Word) : (commit s w).rq = s.rq := rfl
@[simp] theorem commit_status (s : State) (w : Word) : (commit s w).status = s.status := rfl
@[simp] theorem commit_errval (s : State) (w : Word) : (commit s w).errval = s.errval := rfl
@[simp] theorem commit_errw (s : State) (w : Word) : (commit s w).errw = s.errw := rfl
@[simp] theorem commit_params (s : State) (w : Word) : (commit s w).params = s.params := rfl
@[simp] theorem commit_port (s : State) (w : Word) : (commit s w).port = s.port := rfl

/-! ## `resetRegisters` -/

@[simp] theorem resetRegisters_w (s : State) : (resetRegisters s).w = 0x80000000#32 := rfl
@[simp] theorem resetRegisters_rint (s : State) : (resetRegisters s).rint = 0 := rfl
@[simp] theorem resetRegisters_rq (s : State) : (resetRegisters s).rq = 0 := rfl
@[simp] theorem resetRegisters_status (s : State) : (resetRegisters s).status = 0#3 := rfl
@[simp] theorem resetRegisters_errval (s : State) : (resetRegisters s).errval = 0 := rfl
@[simp] theorem resetRegisters_errw (s : State) : (resetRegisters s).errw = 0 := rfl
@[simp] theorem resetRegisters_params (s : State) : (resetRegisters s).params = s.params := rfl
@[simp] theorem resetRegisters_port (s : State) : (resetRegisters s).port = s.port := rfl

/-! ## `takeSample` -/

@[simp] theorem takeSample_w (s : State) : (takeSample s).w = s.w := rfl
@[simp] theorem takeSample_rint (s : State) : (takeSample s).rint = s.rint := rfl
@[simp] theorem takeSample_rq (s : State) : (takeSample s).rq = s.rq := rfl
@[simp] theorem takeSample_status (s : State) : (takeSample s).status = s.status := rfl
@[simp] theorem takeSample_errval (s : State) : (takeSample s).errval = s.errval := rfl
@[simp] theorem takeSample_errw (s : State) : (takeSample s).errw = s.errw := rfl
@[simp] theorem takeSample_params (s : State) : (takeSample s).params = s.params := rfl
@[simp] theorem takeSample_port (s : State) : (takeSample s).port = s.port.tail := rfl

/-! ## `present` -/

@[simp] theorem present_w (c : Command) (s : State) : (present c s).w = s.w := rfl
@[simp] theorem present_rint (c : Command) (s : State) : (present c s).rint = s.rint := rfl
@[simp] theorem present_rq (c : Command) (s : State) : (present c s).rq = s.rq := rfl
@[simp] theorem present_status (c : Command) (s : State) : (present c s).status = s.status := rfl
@[simp] theorem present_errval (c : Command) (s : State) : (present c s).errval = s.errval := rfl
@[simp] theorem present_errw (c : Command) (s : State) : (present c s).errw = s.errw := rfl
@[simp] theorem present_params (c : Command) (s : State) : (present c s).params = s.params := rfl
@[simp] theorem present_port (c : Command) (s : State) : (present c s).port = { rst := false, command := some c } :: s.port := rfl

/-! ## `reporting` -/

@[simp] theorem reporting_w (s : State) (c : Status) (v : Int) (n : Nat) : (reporting s c v n).w = s.w := rfl
@[simp] theorem reporting_rint (s : State) (c : Status) (v : Int) (n : Nat) : (reporting s c v n).rint = s.rint := rfl
@[simp] theorem reporting_rq (s : State) (c : Status) (v : Int) (n : Nat) : (reporting s c v n).rq = s.rq := rfl
@[simp] theorem reporting_status (s : State) (c : Status) (v : Int) (n : Nat) : (reporting s c v n).status = c := rfl
@[simp] theorem reporting_errval (s : State) (c : Status) (v : Int) (n : Nat) : (reporting s c v n).errval = v := rfl
@[simp] theorem reporting_errw (s : State) (c : Status) (v : Int) (n : Nat) : (reporting s c v n).errw = n := rfl
@[simp] theorem reporting_params (s : State) (c : Status) (v : Int) (n : Nat) : (reporting s c v n).params = s.params := rfl
@[simp] theorem reporting_port (s : State) (c : Status) (v : Int) (n : Nat) : (reporting s c v n).port = s.port := rfl

end Sys2Proof.Machine
end

