-- ==== Sys2Proof/Laws/Word.lean ====
section
/-! SUPPORT. What parity, `fld`, `merge` and `commit` do, bit by bit. -/

namespace Sys2Proof.Machine

/-! ## Parity (R76, R131) -/

/-- The count of set bits of a word: those of bits 1 to 31, and bit 32. -/
theorem popcount_word (w : BitVec 32) :
    popcount w = (List.range 31).countP w.getLsbD + (w.getLsbD 31).toNat := by
  have e : List.range 32 = List.range 31 ++ [31] := List.range_succ
  unfold popcount
  rw [e, List.countP_append]
  generalize hb : w.getLsbD 31 = b
  cases b <;> simp only [List.countP_cons, List.countP_nil, hb] <;> rfl

theorem popcount_append_one (b : BitVec 1) (x : BitVec 31) :
    popcount (b ++ x : BitVec (1 + 31)) = popcount x + b.toNat := by
  have hlow : (List.range 31).countP (b ++ x : BitVec (1 + 31)).getLsbD = (List.range 31).countP x.getLsbD :=
    List.countP_congr fun k hk => by
      rw [BitVec.getLsbD_append, if_pos (List.mem_range.mp hk)]
  rw [popcount_word, hlow, BitVec.getLsbD_append]
  rcases BitVec.eq_zero_or_eq_one b with rfl | rfl <;> simp [popcount]

/-- A word completed with its parity bit has an odd number of set bits. -/
theorem popcount_withParity (x : BitVec 31) : popcount (withParity x) % 2 = 1 := by
  have h := popcount_append_one (par x) x
  have hp : (par x).toNat = 1 - popcount x % 2 := by
    rcases Nat.mod_two_eq_zero_or_one (popcount x) with h | h <;> simp [par, h]
  have : popcount (withParity x) = popcount x + (par x).toNat := h
  omega

theorem withParity_getLsbD_low (x : BitVec 31) {k : Nat} (hk : k < 31) : (withParity x).getLsbD k = x.getLsbD k := by
  unfold withParity
  rw [BitVec.getLsbD_append, if_pos hk]

theorem withParity_getLsbD_top (x : BitVec 31) : (withParity x).getLsbD 31 = decide (popcount x % 2 = 0) := by
  unfold withParity
  rw [BitVec.getLsbD_append, if_neg (by omega)]
  rcases Nat.mod_two_eq_zero_or_one (popcount x) with h | h <;> simp [par, h]

/-- Two words with the same bits 1 to 31 and an odd number of set bits each are equal. -/
theorem eq_of_odd_of_low {u v : Word} (hu : popcount u % 2 = 1) (hv : popcount v % 2 = 1)
    (h : ∀ k, k < 31 → u.getLsbD k = v.getLsbD k) : u = v := by
  have hlow : (List.range 31).countP u.getLsbD = (List.range 31).countP v.getLsbD :=
    List.countP_congr fun k hk => by rw [h k (List.mem_range.mp hk)]
  have htop : u.getLsbD 31 = v.getLsbD 31 := by
    rw [popcount_word] at hu hv
    rw [hlow] at hu
    generalize u.getLsbD 31 = p at *
    generalize v.getLsbD 31 = q at *
    cases p <;> cases q <;> simp only [Bool.toNat_true, Bool.toNat_false] at hu hv ⊢ <;> omega
  refine BitVec.eq_of_getLsbD_eq fun k hk => ?_
  rcases Nat.lt_or_ge k 31 with hk' | hk'
  · exact h k hk'
  · obtain rfl : k = 31 := by omega
    exact htop

/-! ## `commit` (R131) -/

theorem popcount_commit (s : State) (w : Word) : popcount (commit s w).w % 2 = 1 := popcount_withParity _

theorem commit_getLsbD (s : State) (w : Word) {k : Nat} (hk : k < 31) : (commit s w).w.getLsbD k = w.getLsbD k := by
  rw [commit_w, withParity_getLsbD_low _ hk]
  simp [hk]

/-! ## `merge` and `fld` (R77, R78) -/

/-- A range of bits between 1 and 31: a legal data range, the label, the SDI or the SSM. -/
abbrev WordRange (lsb msb : Nat) : Prop := 1 ≤ lsb ∧ lsb ≤ msb ∧ msb ≤ 31

theorem LegalRange.wordRange {lsb msb : Nat} (h : LegalRange lsb msb) : WordRange lsb msb := by
  unfold LegalRange at h
  exact ⟨by omega, by omega, by omega⟩

theorem fieldMask_getLsbD {lsb msb : Nat} (h : WordRange lsb msb) {k : Nat} (hk : k < 32) :
    (fieldMask lsb msb).getLsbD k = decide (lsb ≤ k + 1 ∧ k + 1 ≤ msb) := by
  obtain ⟨h1, h2, h3⟩ := h
  unfold fieldMask width
  rw [BitVec.getLsbD_shiftLeft, BitVec.getLsbD_ofNat, Nat.testBit_two_pow_sub_one]
  by_cases a : lsb ≤ k + 1 <;> by_cases b : k + 1 ≤ msb <;> simp [*] <;> omega

theorem merge_getLsbD {lsb msb : Nat} (h : WordRange lsb msb) (w : Word) {raw : Nat} (hraw : raw < 2 ^ width lsb msb)
    {k : Nat} (hk : k < 32) :
    (merge w lsb msb raw).getLsbD k =
      if lsb ≤ k + 1 ∧ k + 1 ≤ msb then raw.testBit (k + 1 - lsb) else w.getLsbD k := by
  have hm := fieldMask_getLsbD h hk
  obtain ⟨h1, h2, h3⟩ := h
  have hbig : ∀ j, width lsb msb ≤ j → raw.testBit j = false := fun j hj =>
    Nat.testBit_lt_two_pow (lt_of_lt_of_le hraw (Nat.pow_le_pow_right (by omega) hj))
  unfold merge
  rw [BitVec.getLsbD_or, BitVec.getLsbD_and, BitVec.getLsbD_not, hm, BitVec.getLsbD_shiftLeft, BitVec.getLsbD_ofNat]
  unfold width at hbig
  by_cases a : lsb ≤ k + 1
  · have e : k - (lsb - 1) = k + 1 - lsb := by omega
    by_cases b : k + 1 ≤ msb
    · simp [a, b, hk, e, show ¬ k < lsb - 1 by omega, show k + 1 - lsb < 32 by omega]
    · have hf : raw.testBit (k + 1 - lsb) = false := hbig _ (by omega)
      simp [a, b, hk, e, hf]
  · simp [a, hk]

theorem fld_testBit (w : Word) (lsb msb : Nat) (j : Nat) :
    (fld w lsb msb).testBit j = (decide (j < width lsb msb) && w.getLsbD (lsb - 1 + j)) := by
  unfold fld
  rw [Nat.testBit_mod_two_pow, Nat.testBit_shiftRight]
  simp [BitVec.getLsbD]

/-- The extractor is the arithmetic reading of the bits. -/
theorem fld_eq_bitsOf (w : Word) (lsb msb : Nat) : fld w lsb msb = bitsOf w lsb msb := by
  simp [fld, bitsOf, width, Nat.shiftRight_eq_div_pow]

theorem fld_lt (w : Word) (lsb msb : Nat) : fld w lsb msb < 2 ^ width lsb msb := Nat.mod_lt _ (Nat.two_pow_pos _)

/-- Reading a field just placed gives the raw value placed (R78). -/
theorem fld_commit_merge {lsb msb : Nat} (h : WordRange lsb msb) (s : State) (w : Word) {raw : Nat}
    (hraw : raw < 2 ^ width lsb msb) : fld (commit s (merge w lsb msb raw)).w lsb msb = raw := by
  refine Nat.eq_of_testBit_eq fun j => ?_
  rw [fld_testBit]
  by_cases hj : j < width lsb msb
  · have hj' := hj
    obtain ⟨h1, h2, h3⟩ := id h
    unfold width at hj'
    rw [commit_getLsbD _ _ (by omega), merge_getLsbD h w hraw (by omega), if_pos (by omega)]
    simp [hj, show lsb - 1 + j + 1 - lsb = j by omega]
  · simp [hj]
    exact Nat.testBit_lt_two_pow (lt_of_lt_of_le hraw (Nat.pow_le_pow_right (by omega) (by omega)))

/-- Placing a field changes no bit from 1 to 31 outside it (R78, R131). -/
theorem agreeOutside_commit_merge {lsb msb : Nat} (h : WordRange lsb msb) (s : State) {raw : Nat}
    (hraw : raw < 2 ^ width lsb msb) : AgreeOutside s.w (commit s (merge s.w lsb msb raw)).w lsb msb := by
  intro k h1 h2 hout
  rw [commit_getLsbD _ _ (by omega), merge_getLsbD h s.w hraw (by omega), if_neg (by omega)]

/-- A completed placement is `Placed`. -/
theorem placed_commit_merge {lsb msb : Nat} (h : WordRange lsb msb) (s : State) {raw : Nat}
    (hraw : raw < 2 ^ width lsb msb) : Placed s (complete (commit s (merge s.w lsb msb raw))) lsb msb raw :=
  ⟨by rw [← fld_eq_bitsOf]; exact fld_commit_merge h s s.w hraw, agreeOutside_commit_merge h s hraw,
    popcount_commit s _, rfl⟩

/-- Placing the same raw value in the same field again changes nothing. -/
theorem commit_merge_twice {lsb msb raw : Nat} (h : WordRange lsb msb) (s s' : State) (x : Word) (hv : raw < 2 ^ width lsb msb) :
    (commit s (merge (commit s' (merge x lsb msb raw)).w lsb msb raw)).w = (commit s' (merge x lsb msb raw)).w := by
  refine eq_of_odd_of_low (popcount_commit _ _) (popcount_commit _ _) fun k hk => ?_
  rw [commit_getLsbD _ _ hk, commit_getLsbD _ _ hk, merge_getLsbD h _ hv (by omega), merge_getLsbD h _ hv (by omega)]
  split
  · rfl
  · rw [commit_getLsbD _ _ hk, merge_getLsbD h _ hv (by omega), if_neg (by assumption)]

/-- Two placements in disjoint fields commute. -/
theorem commit_merge_comm {l m r l' m' r' : Nat} (h : WordRange l m) (h' : WordRange l' m') (hv : r < 2 ^ width l m)
    (hv' : r' < 2 ^ width l' m') (hd : ∀ k, ¬ ((l ≤ k ∧ k ≤ m) ∧ (l' ≤ k ∧ k ≤ m'))) (s1 s2 s3 s4 : State) (w : Word) :
    (commit s1 (merge (commit s2 (merge w l m r)).w l' m' r')).w =
    (commit s3 (merge (commit s4 (merge w l' m' r')).w l m r)).w := by
  refine eq_of_odd_of_low (popcount_commit _ _) (popcount_commit _ _) fun k hk => ?_
  rw [commit_getLsbD _ _ hk, commit_getLsbD _ _ hk, merge_getLsbD h' _ hv' (by omega), merge_getLsbD h _ hv (by omega),
    commit_getLsbD _ _ hk, commit_getLsbD _ _ hk, merge_getLsbD h _ hv (by omega), merge_getLsbD h' _ hv' (by omega)]
  have := hd (k+1)
  by_cases a : l ≤ k + 1 ∧ k + 1 ≤ m
  · have b : ¬ (l' ≤ k + 1 ∧ k + 1 ≤ m') := fun b => this ⟨a, b⟩
    rw [if_neg b, if_pos a, if_pos a]
  · rw [if_neg a, if_neg a]

end Sys2Proof.Machine
end

