-- ==== Sys2Proof/Laws/Checks.lean ====
section
/-! SUPPORT. One spec lemma for each check and each staged write: when it answers `.ok` and what, when it raises. -/

namespace Sys2Proof.Machine

/-! ## How a command ends -/

@[simp] theorem settle_ok (s t : State) : settle s (.ok t) = .next (complete t) := rfl

@[simp] theorem settle_error (s : State) (e : CmdError) : settle s (.error e) = .next (abort e s) := rfl

theorem abort_eq_reporting (e : CmdError) (s : State) : abort e s = reporting s e.code e.errval e.errw := rfl

/-- Everything `settle` can answer. -/
theorem settle_next {s t : State} {r : Except CmdError State} (h : settle s r = .next t) :
    (∃ u, r = .ok u ∧ t = complete u) ∨ (∃ e, r = .error e ∧ t = abort e s) := by
  cases r with
  | ok u => exact .inl ⟨u, rfl, by simpa using h.symm⟩
  | error e => exact .inr ⟨e, rfl, by simpa using h.symm⟩

/-- A raise in a check ends the command: the rest does not run. -/
@[simp] theorem error_bind {α β : Type} (e : CmdError) (f : α → Except CmdError β) :
    ((Except.error e : Except CmdError α) >>= f) = .error e := rfl

@[simp] theorem ok_bind {α β : Type} (a : α) (f : α → Except CmdError β) :
    ((Except.ok a : Except CmdError α) >>= f) = f a := rfl

/-- Where a sequence of two parts succeeded, both did. -/
theorem bind_ok {α β : Type} {x : Except CmdError α} {f : α → Except CmdError β} {b : β} (h : (x >>= f) = .ok b) :
    ∃ a, x = .ok a ∧ f a = .ok b := by
  cases x with
  | ok a => exact ⟨a, rfl, h⟩
  | error e => cases h

/-! ## Range and length (R70, R74) -/

theorem validateRange_legal {lsb msb : Nat} (h : LegalRange lsb msb) : validateRange lsb msb = .ok () :=
  if_neg (by unfold LegalRange at h; omega)

theorem validateRange_illegal {lsb msb : Nat} (h : ¬ LegalRange lsb msb) : validateRange lsb msb = .error .rangeError :=
  if_pos (by unfold LegalRange at h; omega)

theorem validateRange_ok {lsb msb : Nat} {u : Unit} (h : validateRange lsb msb = .ok u) : LegalRange lsb msb := by
  by_contra hn
  rw [validateRange_illegal hn] at h
  cases h

theorem validateBitLength_fits {raw len : Nat} (h : raw < 2 ^ len) : validateBitLength raw len = .ok () :=
  if_neg (by omega)

theorem validateBitLength_overflow {raw len : Nat} (h : 2 ^ len ≤ raw) :
    validateBitLength raw len = .error (.fieldOverflow raw len) := if_pos h

theorem validateBitLength_ok {raw len : Nat} {u : Unit} (h : validateBitLength raw len = .ok u) : raw < 2 ^ len := by
  by_contra hn
  rw [validateBitLength_overflow (not_lt.mp hn)] at h
  cases h

/-! ## Operands (R9, R75) -/

theorem q_pos {n : Int} {d : Nat} (h : GoodResolution n d) : 0 < q n d := by
  obtain ⟨hd, hn⟩ := h
  have : (0 : Rat) < d := by exact_mod_cast Nat.pos_of_ne_zero hd
  exact div_pos (by exact_mod_cast hn) this

theorem q_nonpos {n : Int} (d : Nat) (h : n ≤ 0) : q n d ≤ 0 :=
  div_nonpos_of_nonpos_of_nonneg (by exact_mod_cast h) (by positivity)

theorem q_neg_iff {n : Int} {d : Nat} (hd : d ≠ 0) : q n d < 0 ↔ n < 0 := by
  have : (0 : Rat) < d := by exact_mod_cast Nat.pos_of_ne_zero hd
  rw [q, div_lt_iff₀ this, zero_mul]
  exact_mod_cast Iff.rfl

theorem validResolution_good {rn : Int} {rd : Nat} (h : GoodResolution rn rd) : validResolution rn rd = .ok (q rn rd) := by
  unfold validResolution
  rw [if_neg h.1, if_neg (not_le.mpr (q_pos h))]

theorem validResolution_bad {rn : Int} {rd : Nat} (h : ¬ GoodResolution rn rd) :
    validResolution rn rd = .error .valueError := by
  unfold validResolution
  by_cases hd : rd = 0
  · rw [if_pos hd]
  · rw [if_neg hd, if_pos (q_nonpos rd (not_lt.mp fun hn => h ⟨hd, hn⟩))]

theorem validValue_good (vn : Int) {vd : Nat} (h : vd ≠ 0) : validValue vn vd = .ok (q vn vd) := if_neg h

theorem validValue_bad (vn : Int) : validValue vn 0 = .error .valueError := rfl

theorem validUnsigned_nonneg {a : Int} (h : 0 ≤ a) : validUnsigned a = .ok a.toNat := if_neg (by omega)

theorem validUnsigned_neg {a : Int} (h : a < 0) : validUnsigned a = .error .valueError := if_pos h

/-! ## RINT (R81) -/

theorem fitsRint_iff (rw : ResultWidth) (v : Int) : fitsRint rw v = true ↔ RintHolds rw v := by
  cases rw <;> simp [fitsRint, RintHolds]

theorem fitsRint_false_iff (rw : ResultWidth) (v : Int) : fitsRint rw v = false ↔ ¬ RintHolds rw v := by
  rw [← fitsRint_iff, Bool.not_eq_true]

theorem putRint_fits {s : State} {v : Int} (h : fitsRint s.params.rw v = true) :
    putRint s v = .ok { s with rint := v } := by simp [putRint, h]

theorem putRint_overflow {s : State} {v : Int} (h : fitsRint s.params.rw v = false) :
    putRint s v = .error (.fieldOverflow v (rintWidth s.params.rw)) := by simp [putRint, h]

theorem putRint_ok {s t : State} {v : Int} (h : putRint s v = .ok t) :
    fitsRint s.params.rw v = true ∧ t = { s with rint := v } := by
  cases hf : fitsRint s.params.rw v with
  | true => rw [putRint_fits hf] at h; cases h; exact ⟨rfl, rfl⟩
  | false => rw [putRint_overflow hf] at h; cases h

/-- With a legal RW, every value of at most 32 unsigned bits fits RINT. -/
theorem fitsRint_word {rw : ResultWidth} (h : rw.isLegal = true) {v : Nat} (hv : v < 2 ^ 32) : fitsRint rw (v : Int) = true := by
  cases rw with
  | unbounded => rfl
  | bits n =>
    have hn : 33 ≤ n := of_decide_eq_true h
    have : (2 : Int) ^ 32 ≤ 2 ^ (n - 1) := pow_le_pow_right₀ (by norm_num) (by omega)
    have hv' : (v : Int) < 2 ^ 32 := by exact_mod_cast hv
    simp only [fitsRint, Bool.and_eq_true, decide_eq_true_eq]
    omega

/-! ## Placement (R136) -/

theorem place_fits (s : State) {lsb msb raw : Nat} (h : raw < 2 ^ width lsb msb) :
    place s lsb msb raw = .ok (commit s (merge s.w lsb msb raw)) := by
  rw [place, validateBitLength_fits h]
  rfl

theorem place_overflow (s : State) {lsb msb raw : Nat} (h : 2 ^ width lsb msb ≤ raw) :
    place s lsb msb raw = .error (.fieldOverflow raw (width lsb msb)) := by
  rw [place, validateBitLength_overflow h]
  rfl

/-! ## Two's complement (R116, R7) -/

theorem bnrWrap_fits {n : Int} {w : Nat} (h1 : -(2 ^ (w - 1) : Int) ≤ n) (h2 : n < 2 ^ (w - 1)) :
    bnrWrap n w = .ok (n % (2 ^ w : Int)).toNat := if_neg (by omega)

theorem bnrWrap_overflow {n : Int} {w : Nat} (h : n < -(2 ^ (w - 1) : Int) ∨ (2 ^ (w - 1) : Int) ≤ n) :
    bnrWrap n w = .error (.fieldOverflow n w) := if_pos (by omega)

theorem bnrWrap_lt {n : Int} {w raw : Nat} (h : bnrWrap n w = .ok raw) : raw < 2 ^ w := by
  unfold bnrWrap at h
  split at h
  · cases h
  · cases h
    have := Int.emod_lt_of_pos n (show (0 : Int) < 2 ^ w by positivity)
    have := Int.emod_nonneg n (show (2 ^ w : Int) ≠ 0 by positivity)
    have hc : ((2 ^ w : Nat) : Int) = 2 ^ w := by push_cast; rfl
    omega

/-- Reading the low `w` bits of an integer of `w` signed bits as two's complement gives it back. -/
theorem sext_emod {w : Nat} (hw : 1 ≤ w) {n : Int} (h1 : -(2 ^ (w - 1) : Int) ≤ n) (h2 : n < 2 ^ (w - 1)) :
    sext w (n % (2 ^ w : Int)).toNat = n := by
  obtain ⟨m, rfl⟩ : ∃ m, w = m + 1 := ⟨w - 1, by omega⟩
  simp only [Nat.add_sub_cancel] at h1 h2
  have hp : (2 : Int) ^ (m + 1) = 2 * 2 ^ m := by ring
  have hpos : (0 : Int) < 2 ^ m := by positivity
  have hpn : (2 : Nat) ^ (m + 1) = 2 * 2 ^ m := by ring
  have hc : ((2 ^ m : Nat) : Int) = 2 ^ m := by push_cast; rfl
  unfold sext
  rw [Nat.add_sub_cancel]
  by_cases hn : 0 ≤ n
  · have e : n % (2 ^ (m + 1) : Int) = n := Int.emod_eq_of_lt hn (by omega)
    have hlt : n.toNat < 2 ^ m := by omega
    rw [e, Nat.testBit_lt_two_pow hlt]
    simp [hn]
  · have e : n % (2 ^ (m + 1) : Int) = n + 2 ^ (m + 1) := by
      rw [← Int.add_emod_right, Int.emod_eq_of_lt (by omega) (by omega)]
    have ht : ((n + 2 ^ (m + 1)).toNat).testBit m = true := by
      rw [Nat.testBit_eq_decide_div_mod_eq]
      have : (n + 2 ^ (m + 1)).toNat / 2 ^ m = 1 := by
        apply Nat.div_eq_of_lt_le <;> omega
      simp [this]
    rw [e, ht]
    simp only [if_true]
    omega

end Sys2Proof.Machine
end

