-- ==== Sys2Proof/Laws/Decode.lean ====
section
/-! SUPPORT. Header fields and operand slots: reading what was written gives it back (R51, R53). -/

namespace Sys2Proof

section
variable (op lsb msb : BitVec 5) (ss : BitVec 2) (cnt : BitVec 6)

@[simp] theorem op_assemble : (Header.assemble op lsb msb ss cnt).op = op := by
  ext i hi
  interval_cases i <;> simp [Header.op, Header.assemble]

@[simp] theorem lsb_assemble : (Header.assemble op lsb msb ss cnt).lsb = lsb := by
  ext i hi
  interval_cases i <;> simp [Header.lsb, Header.assemble]

@[simp] theorem msb_assemble : (Header.assemble op lsb msb ss cnt).msb = msb := by
  ext i hi
  interval_cases i <;> simp [Header.msb, Header.assemble]

@[simp] theorem ss_assemble : (Header.assemble op lsb msb ss cnt).ss = ss := by
  ext i hi
  interval_cases i <;> simp [Header.ss, Header.assemble]

@[simp] theorem cnt_assemble : (Header.assemble op lsb msb ss cnt).cnt = cnt := by
  ext i hi
  interval_cases i <;> simp [Header.cnt, Header.assemble]

@[simp] theorem rsv_assemble : (Header.assemble op lsb msb ss cnt).rsv = 0#9 := by
  ext i hi
  interval_cases i <;> simp [Header.rsv, Header.assemble]

/-- The mask of the opcode table sees only OP and RSV (R57). -/
theorem assemble_mask : Header.assemble op lsb msb ss cnt &&& 0xFF80001F#32 = op.setWidth 32 := by
  ext i hi
  interval_cases i <;> simp [Header.assemble]

end

/-- A header is the sum of its fields, each at its weight (R51). -/
theorem header_toNat (h : Header) :
    h.toNat = h.op.toNat + h.lsb.toNat * 2 ^ 5 + h.msb.toNat * 2 ^ 10 + h.ss.toNat * 2 ^ 15 + h.cnt.toNat * 2 ^ 17 +
      h.rsv.toNat * 2 ^ 23 := by
  have := h.isLt
  simp only [Header.op, Header.lsb, Header.msb, Header.ss, Header.cnt, Header.rsv, BitVec.extractLsb'_toNat,
    Nat.shiftRight_eq_div_pow]
  omega

/-- The table's mask and match, read on any header: what is left is OP if RSV is zero, and at least 2^23 if not (R57). -/
theorem mask_toNat (h : Header) : (h &&& 0xFF80001F#32).toNat = h.op.toNat + h.rsv.toNat * 2 ^ 23 := by
  have e : h &&& 0xFF80001F#32 = (h.op.setWidth 32) ||| (h.rsv.setWidth 32 <<< 23) := by
    ext i hi
    interval_cases i <;> simp [Header.op, Header.rsv]
  have hop := h.op.isLt
  have hrsv := h.rsv.isLt
  rw [e, BitVec.or_comm, BitVec.toNat_or, BitVec.toNat_shiftLeft, BitVec.toNat_setWidth, BitVec.toNat_setWidth,
    Nat.mod_eq_of_lt (a := h.rsv.toNat) (by omega), Nat.mod_eq_of_lt (a := h.op.toNat) (by omega), Nat.shiftLeft_eq,
    Nat.mod_eq_of_lt (by omega), Nat.mul_comm, ← Nat.two_pow_add_eq_or_of_lt (by omega)]
  omega

theorem signedSlot_slotBits {p : Params} (hp : p.Legal) {v : Int} (h : fitsSigned p.aw v = true) :
    signedSlot p (slotBits p v) = v := by
  simp only [fitsSigned, Bool.and_eq_true, decide_eq_true_eq] at h
  have h32 : 32 ≤ p.aw := hp.1
  have hlt : slotBits p v < 2 ^ p.aw := by
    have := Int.emod_lt_of_pos v (show (0 : Int) < 2 ^ p.aw by positivity)
    have := Int.emod_nonneg v (show (2 ^ p.aw : Int) ≠ 0 by positivity)
    have hc : ((2 ^ p.aw : Nat) : Int) = 2 ^ p.aw := by push_cast; rfl
    unfold slotBits
    omega
  rw [signedSlot, Nat.mod_eq_of_lt hlt]
  exact Machine.sext_emod (by omega) h.1 h.2

theorem unsignedSlot_fits {p : Params} {v : Nat} (h : fitsUnsigned p.aw v = true) : unsignedSlot p v = v :=
  Nat.mod_eq_of_lt (by simpa [fitsUnsigned] using h)

/-- What a signed slot reads fits the slot (R53). -/
theorem fitsSigned_signedSlot {p : Params} (hp : p.Legal) (port : Nat) : fitsSigned p.aw (signedSlot p port) = true := by
  have h32 : 32 ≤ p.aw := hp.1
  obtain ⟨m, hm⟩ : ∃ m, p.aw = m + 1 := ⟨p.aw - 1, by omega⟩
  have hlt : port % 2 ^ (m + 1) < 2 ^ (m + 1) := Nat.mod_lt _ (by positivity)
  have hpn : (2 : Nat) ^ (m + 1) = 2 * 2 ^ m := by ring
  have hc : ((2 ^ m : Nat) : Int) = 2 ^ m := by push_cast; rfl
  have hpi : (2 : Int) ^ (m + 1) = 2 * 2 ^ m := by ring
  simp only [fitsSigned, signedSlot, sext, hm, Nat.add_sub_cancel, Bool.and_eq_true, decide_eq_true_eq]
  generalize port % 2 ^ (m + 1) = v at *
  have htb : v.testBit m = decide (2 ^ m ≤ v) := by
    rw [Nat.testBit_eq_decide_div_mod_eq]
    by_cases hv : 2 ^ m ≤ v
    · have : v / 2 ^ m = 1 := by apply Nat.div_eq_of_lt_le <;> omega
      simp [this, hv]
    · simp [Nat.div_eq_of_lt (not_le.mp hv), hv]
  rw [htb]
  by_cases hv : 2 ^ m ≤ v <;> simp [hv] <;> omega

theorem fitsUnsigned_unsignedSlot (p : Params) (port : Nat) : fitsUnsigned p.aw (unsignedSlot p port) = true := by
  simp [fitsUnsigned, unsignedSlot, Nat.mod_lt]

/-! ## The decoder, opcode by opcode -/

theorem decode_legal {p : Params} {c : Command} (h : c.header.rsv = 0#9) :
    decode p c = decodeOp p c c.header.op.toNat := if_pos h

theorem decode_reserved {p : Params} {c : Command} (h : c.header.rsv ≠ 0#9) : decode p c = none := if_neg h

/-- The opcode of what `decodeOp` answers is the one it was asked for (R58). -/
theorem opcode_of_decodeOp {p : Params} {c : Command} {n : Nat} {i : Instr} (h : decodeOp p c n = some i) :
    i.opcode.toNat = n := by
  unfold decodeOp at h
  split at h <;> first | (cases h; rfl) | cases h

/-- `decodeOp` answers exactly below 0x12 (R56). -/
theorem decodeOp_isSome (p : Params) (c : Command) (n : Nat) : (decodeOp p c n).isSome = decide (n < 0x12) := by
  by_cases h : n < 0x12
  · interval_cases n <;> rfl
  · have : decodeOp p c n = none := by
      unfold decodeOp
      split <;> first | omega | rfl
    simp [this, h]

end Sys2Proof
end

