-- ==== Sys2Proof/Laws/Digits.lean ====
section
/-! SUPPORT. The model's digit lists are the library's, so that packing and unpacking inherit its laws (R100, R101). -/

namespace Sys2Proof.Machine

theorem digitsAux_eq {b : Nat} (hb : 2 ≤ b) : ∀ fuel n, n ≤ fuel → digitsAux b fuel n = Nat.digits b n := by
  intro fuel
  induction fuel with
  | zero => intro n h; obtain rfl : n = 0 := by omega
            simp [digitsAux]
  | succ fuel ih =>
    intro n h
    by_cases hn : n = 0
    · simp [digitsAux, hn]
    · have hlt : n / b < n := Nat.div_lt_self (by omega) hb
      rw [digitsAux, if_neg hn, ih (n / b) (by omega), Nat.digits_def' (b := b) (n := n) (by omega) (by omega)]

theorem digits_eq {b : Nat} (hb : 2 ≤ b) (n : Nat) : digits b n = Nat.digits b n := digitsAux_eq hb n n le_rfl

theorem ofDigits_eq (b : Nat) (ds : List Nat) : ofDigits b ds = Nat.ofDigits b ds := by
  induction ds with
  | nil => rfl
  | cons d ds ih => simp [ofDigits, Nat.ofDigits_cons, ih]

theorem bcdPack_eq (n : Nat) : bcdPack n = Nat.ofDigits 16 (Nat.digits 10 n) := by
  rw [bcdPack, ofDigits_eq, digits_eq (by norm_num)]

@[simp] theorem bcdPack_zero : bcdPack 0 = 0 := rfl

/-- The recursion of R100's loop: the units digit in the lowest nibble, the rest above it. -/
theorem bcdPack_rec {n : Nat} (hn : 0 < n) : bcdPack n = n % 10 + 16 * bcdPack (n / 10) := by
  rw [bcdPack_eq, bcdPack_eq, Nat.digits_def' (by norm_num) hn, Nat.ofDigits_cons]

/-- The recursion of R101's loop under WEIGHTED_SUM. -/
theorem unpack_rec {raw : Nat} (h : 0 < raw) :
    ofDigits 10 (digits 16 raw) = raw % 16 + 10 * ofDigits 10 (digits 16 (raw / 16)) := by
  rw [ofDigits_eq, ofDigits_eq, digits_eq (by norm_num), digits_eq (by norm_num), Nat.digits_def' (by norm_num) h,
    Nat.ofDigits_cons]

/-- The digits of a packed value are the decimal digits (R100). -/
theorem digits_bcdPack (n : Nat) : digits 16 (bcdPack n) = Nat.digits 10 n := by
  rw [digits_eq (by norm_num), bcdPack_eq]
  refine Nat.digits_ofDigits 16 (by norm_num) _ (fun d hd => ?_) (fun h => ?_)
  · exact lt_trans (Nat.digits_lt_base (by norm_num) hd) (by norm_num)
  · exact Nat.getLast_digit_ne_zero 10 (by rintro rfl; simp at h)

/-- No nibble of a packed value exceeds 9 (R100). -/
theorem hasBadNibble_bcdPack (n : Nat) : hasBadNibble (bcdPack n) = false := by
  unfold hasBadNibble
  rw [digits_bcdPack, List.any_eq_false]
  intro d hd
  have := Nat.digits_lt_base (b := 10) (by norm_num) hd
  simp
  omega

/-- Without a nibble above 9, both policies give the weighted sum (R101, R102). -/
theorem bcdUnpack_clean (m : MalformedPolicy) {raw : Nat} (h : hasBadNibble raw = false) :
    bcdUnpack m raw = .ok (ofDigits 10 (digits 16 raw)) := by
  cases m <;> simp [bcdUnpack, h]

theorem bcdUnpack_bad {raw : Nat} (h : hasBadNibble raw = true) : bcdUnpack .error raw = .error .malformedBcd := by
  simp [bcdUnpack, h]

end Sys2Proof.Machine
end

