-- ==== Sys2Proof/Laws/Rounding.lean ====
section
/-! SUPPORT. What `round` and `scale` answer, by the sign of the argument (R72, R73). -/

namespace Sys2Proof.Machine

theorem sign_num_of_pos {x : Rat} (h : 0 < x) : x.num.sign = 1 := Int.sign_eq_one_of_pos (Rat.num_pos.mpr h)

theorem sign_num_of_neg {x : Rat} (h : x < 0) : x.num.sign = -1 := Int.sign_eq_neg_one_of_neg (Rat.num_neg.mpr h)

@[simp] theorem roundQ_zero (m : RoundMode) : roundQ m 0 = 0 := by cases m <;> simp [roundQ]

theorem roundQ_nearest_of_nonneg {x : Rat} (h : 0 ≤ x) : roundQ .nearestAway x = ⌊x + 1 / 2⌋ := by
  rcases h.eq_or_lt with rfl | h
  · rw [roundQ_zero]; norm_num
  · simp only [roundQ, sign_num_of_pos h, abs_of_pos h, one_mul]; rfl

theorem roundQ_toward_of_nonneg {x : Rat} (h : 0 ≤ x) : roundQ .towardZero x = ⌊x⌋ := by
  rcases h.eq_or_lt with rfl | h
  · rw [roundQ_zero]; norm_num
  · simp only [roundQ, sign_num_of_pos h, abs_of_pos h, one_mul]; rfl

/-- Rounding is odd: the sign is taken off and put back. -/
theorem roundQ_neg (m : RoundMode) (x : Rat) : roundQ m (-x) = -roundQ m x := by
  cases m <;> simp [roundQ]

/-- A non-negative rational rounds to a non-negative integer (R103). -/
theorem roundQ_nonneg (m : RoundMode) {x : Rat} (h : 0 ≤ x) : 0 ≤ roundQ m x := by
  cases m with
  | nearestAway => rw [roundQ_nearest_of_nonneg h]; exact Int.floor_nonneg.mpr (by linarith)
  | towardZero => rw [roundQ_toward_of_nonneg h]; exact Int.floor_nonneg.mpr h

theorem scale_nonneg (m : RoundMode) {v r : Rat} (hv : 0 ≤ v) (hr : 0 < r) : 0 ≤ scale m v r :=
  roundQ_nonneg m (div_nonneg hv hr.le)

end Sys2Proof.Machine
end

