-- ==== Sys2Proof/Laws/Codecs.lean ====
section
/-! SUPPORT. What the two encoders answer on good operands and on bad ones (R103, R115), and the small facts about two's
complement and nibbles the decoders rest on (R117, R102). -/

namespace Sys2Proof.Machine

theorem bcdEncode_bad {p : Params} {vn : Int} {vd : Nat} {rn : Int} {rd : Nat} (h : ¬ (GoodResolution rn rd ∧ vd ≠ 0 ∧ 0 ≤ vn)) :
    bcdEncode p vn vd rn rd = .error .valueError := by
  unfold bcdEncode
  by_cases hr : GoodResolution rn rd
  · rw [validResolution_good hr, ok_bind]
    by_cases hv : vd = 0
    · subst hv; rw [validValue_bad]; rfl
    · rw [validValue_good _ hv, ok_bind]
      have : q vn vd < 0 := (q_neg_iff hv).mpr (by by_contra hc; exact h ⟨hr, hv, by omega⟩)
      simp only [this, if_true]; rfl
  · rw [validResolution_bad hr]; rfl

theorem bcdEncode_good {p : Params} {vn : Int} {vd : Nat} {rn : Int} {rd : Nat} (h : GoodResolution rn rd ∧ vd ≠ 0 ∧ 0 ≤ vn) :
    bcdEncode p vn vd rn rd = .ok (bcdPack (scale p.roundMode (q vn vd) (q rn rd)).toNat) := by
  obtain ⟨hr, hv, hn⟩ := h
  unfold bcdEncode
  rw [validResolution_good hr, ok_bind, validValue_good _ hv, ok_bind]
  have : ¬ q vn vd < 0 := by rw [q_neg_iff hv]; omega
  simp only [this, if_false]; rfl

theorem bnrEncode_bad {p : Params} {vn : Int} {vd : Nat} {rn : Int} {rd : Nat} (h : ¬ (GoodResolution rn rd ∧ vd ≠ 0)) :
    bnrEncode p vn vd rn rd = .error .valueError := by
  unfold bnrEncode
  by_cases hr : GoodResolution rn rd
  · rw [validResolution_good hr, ok_bind]
    obtain rfl : vd = 0 := by by_contra hc; exact h ⟨hr, hc⟩
    rw [validValue_bad]; rfl
  · rw [validResolution_bad hr]; rfl

theorem bnrEncode_good {p : Params} {vn : Int} {vd : Nat} {rn : Int} {rd : Nat} (h : GoodResolution rn rd ∧ vd ≠ 0) :
    bnrEncode p vn vd rn rd = .ok (scale p.roundMode (q vn vd) (q rn rd)) := by
  unfold bnrEncode
  rw [validResolution_good h.1, ok_bind, validValue_good _ h.2, ok_bind]; rfl

/-- `sext` as a comparison with half the range (R7). -/
theorem sext_cases {w raw : Nat} (h1 : 1 ≤ w) (h : raw < 2 ^ w) :
    sext w raw = if raw < 2 ^ (w - 1) then (raw : Int) else raw - 2 ^ w := by
  obtain ⟨m, rfl⟩ : ∃ m, w = m + 1 := ⟨w - 1, by omega⟩
  have hpn : (2 : Nat) ^ (m + 1) = 2 * 2 ^ m := by ring
  simp only [Nat.add_sub_cancel] at *
  have htb : raw.testBit m = decide (2 ^ m ≤ raw) := by
    rw [Nat.testBit_eq_decide_div_mod_eq]
    by_cases hv : 2 ^ m ≤ raw
    · have : raw / 2 ^ m = 1 := by apply Nat.div_eq_of_lt_le <;> omega
      simp [this, hv]
    · simp [Nat.div_eq_of_lt (not_le.mp hv), hv]
  unfold sext
  rw [Nat.add_sub_cancel, htb]
  by_cases hv : 2 ^ m ≤ raw
  · simp [hv]
  · simp [hv, not_le.mp hv]

/-- The executable check of R102 is the claim's `BadNibble`. -/
theorem badNibble_iff (raw : Nat) : hasBadNibble raw = true ↔ BadNibble raw := by
  unfold hasBadNibble BadNibble
  rw [digits_eq (by norm_num), List.any_eq_true]
  constructor
  · rintro ⟨d, hd, h9⟩
    obtain ⟨i, hi, rfl⟩ := List.getElem_of_mem hd
    refine ⟨i, ?_⟩
    have := Nat.getD_digits raw i (b := 16) (by norm_num)
    rw [List.getD_eq_getElem _ _ hi] at this
    rw [← this]; simpa using h9
  · rintro ⟨i, h⟩
    have := Nat.getD_digits raw i (b := 16) (by norm_num)
    rw [← this] at h
    have hi : i < (Nat.digits 16 raw).length := by
      by_contra hc
      rw [List.getD_eq_default _ _ (not_lt.mp hc)] at h; omega
    rw [List.getD_eq_getElem _ _ hi] at h
    exact ⟨_, List.getElem_mem hi, by simpa using h⟩

end Sys2Proof.Machine
end

