-- ==== Sys2Proof/Laws/Exec.lean ====
section
/-! SUPPORT. What any command can do, said once: which field a setter writes and with what, and the few shapes a
completed command's writes have. Claims over all commands follow from these by cases. -/

namespace Sys2Proof.Machine

/-! ## Setters: one field, one raw value, both independent of the state -/

/-- The field and raw value a setter writes, or the error it raises, from its operands and the parameters. -/
def setterField (p : Params) : Instr → Except CmdError (Nat × Nat × Nat)
  | .setlbl a => if a < 0 ∨ a > 255 then .error .rangeError else .ok (1, 8, a.toNat)
  | .setsdi ss => .ok (9, 10, ss.toNat)
  | .setssm ss => .ok (30, 31, ss.toNat)
  | .setdisc lsb msb a => do
    let raw ← discEncode a
    validateRange lsb.toNat msb.toNat
    validateBitLength raw (width lsb.toNat msb.toNat)
    pure (lsb.toNat, msb.toNat, raw)
  | .setbcd lsb msb vn vd rn rd => do
    let raw ← bcdEncode p vn vd rn rd
    validateRange lsb.toNat msb.toNat
    validateBitLength raw (width lsb.toNat msb.toNat)
    pure (lsb.toNat, msb.toNat, raw)
  | .setbnr lsb msb vn vd rn rd => do
    let n ← bnrEncode p vn vd rn rd
    validateRange lsb.toNat msb.toNat
    let raw ← bnrWrap n (width lsb.toNat msb.toNat)
    pure (lsb.toNat, msb.toNat, raw)
  | _ => .ok (1, 1, 0)

/-- The word commands that keep the bits they do not write: all that write W but NEW. -/
def isSetter : Instr → Bool
  | .setlbl _ => true
  | .setsdi _ => true
  | .setssm _ => true
  | .setdisc _ _ _ => true
  | .setbcd _ _ _ _ _ _ => true
  | .setbnr _ _ _ _ _ _ => true
  | _ => false

theorem isSetter_of_writesW {i : Instr} (h : writesW i = true) (hn : i ≠ .new) : isSetter i = true := by
  cases i <;> first | rfl | exact absurd rfl hn | exact nomatch (show false = true from h)

theorem writesW_of_isSetter {i : Instr} (h : isSetter i = true) : writesW i = true := by
  cases i <;> first | rfl | exact nomatch (show false = true from h)

/-- The masked OR of SETLBL, SETSDI and SETSSM, after `commit`, is a merge: two words with the same bits 1 to 31 commit
alike. -/
theorem commit_congr {s : State} {u v : Word} (h : ∀ k, k < 31 → u.getLsbD k = v.getLsbD k) : commit s u = commit s v := by
  have : u.extractLsb' 0 31 = v.extractLsb' 0 31 := by
    refine BitVec.eq_of_getLsbD_eq fun k hk => ?_
    simpa [hk] using h k hk
  simp only [commit, this]

theorem commit_label (s : State) {a : Int} (h0 : 0 ≤ a) (h1 : a ≤ 255) :
    commit s ((s.w &&& 0x7FFFFF00#32) ||| BitVec.ofInt 32 a) = commit s (merge s.w 1 8 a.toNat) := by
  obtain ⟨n, rfl⟩ : ∃ n : Nat, a = n := ⟨a.toNat, by omega⟩
  have hn : n < 2 ^ 8 := by omega
  refine commit_congr fun k hk => ?_
  rw [merge_getLsbD ⟨by omega, by omega, by omega⟩ _ (by simpa [width] using hn) (by omega)]
  have hbig : ∀ j, 8 ≤ j → n.testBit j = false := fun j hj =>
    Nat.testBit_lt_two_pow (lt_of_lt_of_le hn (Nat.pow_le_pow_right (by omega) hj))
  have e : (BitVec.ofNat 32 n).getLsbD k = n.testBit k := by
    rw [BitVec.getLsbD_ofNat]; simp [show k < 32 by omega]
  rw [BitVec.getLsbD_or, BitVec.getLsbD_and, BitVec.ofInt_natCast, e]
  interval_cases k <;> simp [hbig]

theorem commit_sdi (s : State) (ss : BitVec 2) :
    commit s ((s.w &&& 0x7FFFFCFF#32) ||| (ss.setWidth 32 <<< 8)) = commit s (merge s.w 9 10 ss.toNat) := by
  refine commit_congr fun k hk => ?_
  rw [merge_getLsbD ⟨by omega, by omega, by omega⟩ _ (by simpa [width] using ss.isLt) (by omega)]
  rw [BitVec.testBit_toNat, BitVec.getLsbD_or, BitVec.getLsbD_and, BitVec.getLsbD_shiftLeft, BitVec.getLsbD_setWidth]
  interval_cases k <;> simp

theorem commit_ssm (s : State) (ss : BitVec 2) :
    commit s ((s.w &&& 0x1FFFFFFF#32) ||| (ss.setWidth 32 <<< 29)) = commit s (merge s.w 30 31 ss.toNat) := by
  refine commit_congr fun k hk => ?_
  rw [merge_getLsbD ⟨by omega, by omega, by omega⟩ _ (by simpa [width] using ss.isLt) (by omega)]
  rw [BitVec.testBit_toNat, BitVec.getLsbD_or, BitVec.getLsbD_and, BitVec.getLsbD_shiftLeft, BitVec.getLsbD_setWidth]
  interval_cases k <;> simp

/-- Every setter is a merge of its field (R133 to R139, R78, R131). -/
theorem exec_setter {i : Instr} (h : isSetter i = true) (s : State) :
    exec i s = settle s ((setterField s.params i).map fun f => commit s (merge s.w f.1 f.2.1 f.2.2)) := by
  cases i with
  | setlbl a =>
    simp only [exec, execSetlbl, setterField]
    by_cases ha : a < 0 ∨ a > 255
    · simp [ha, Except.map]; rfl
    · rw [if_neg ha, if_neg ha]
      exact congrArg (settle s ∘ .ok) (commit_label s (by omega) (by omega))
  | setsdi ss => exact congrArg (settle s ∘ .ok) (commit_sdi s ss)
  | setssm ss => exact congrArg (settle s ∘ .ok) (commit_ssm s ss)
  | setdisc lsb msb a =>
    simp only [exec, execSetdisc, setterField, place]
    cases discEncode a with
    | error e => rfl
    | ok raw =>
      simp only [ok_bind]
      cases validateRange lsb.toNat msb.toNat with
      | error e => rfl
      | ok _ => cases validateBitLength raw (width lsb.toNat msb.toNat) <;> rfl
  | setbcd lsb msb vn vd rn rd =>
    simp only [exec, execSetbcd, setterField, place]
    cases bcdEncode s.params vn vd rn rd with
    | error e => rfl
    | ok raw =>
      simp only [ok_bind]
      cases validateRange lsb.toNat msb.toNat with
      | error e => rfl
      | ok _ => cases validateBitLength raw (width lsb.toNat msb.toNat) <;> rfl
  | setbnr lsb msb vn vd rn rd =>
    simp only [exec, execSetbnr, setterField]
    cases bnrEncode s.params vn vd rn rd with
    | error e => rfl
    | ok n =>
      simp only [ok_bind]
      cases validateRange lsb.toNat msb.toNat with
      | error e => rfl
      | ok _ => cases bnrWrap n (width lsb.toNat msb.toNat) <;> rfl
  | _ => cases h

/-- Where a setter does not raise, its field is a range of bits 1 to 31 and its raw value fits. -/
theorem setterField_ok {p : Params} {i : Instr} (h : isSetter i = true) {f : Nat × Nat × Nat}
    (hf : setterField p i = .ok f) :
    WordRange f.1 f.2.1 ∧ f.2.2 < 2 ^ width f.1 f.2.1 ∧ ∀ k, mayWriteBit i k ↔ f.1 ≤ k ∧ k ≤ f.2.1 := by
  cases i with
  | setlbl a =>
    simp only [setterField] at hf
    split at hf
    · cases hf
    · cases hf
      exact ⟨by simp [WordRange], by simp only [width]; omega, fun k => Iff.rfl⟩
  | setsdi ss => cases hf; exact ⟨by simp [WordRange], ss.isLt, fun k => Iff.rfl⟩
  | setssm ss => cases hf; exact ⟨by simp [WordRange], ss.isLt, fun k => Iff.rfl⟩
  | setdisc lsb msb a =>
    obtain ⟨raw, -, hf⟩ := bind_ok hf
    obtain ⟨_, hr, hf⟩ := bind_ok hf
    obtain ⟨_, hl, hf⟩ := bind_ok hf
    cases hf
    exact ⟨(validateRange_ok hr).wordRange, validateBitLength_ok hl, fun k => Iff.rfl⟩
  | setbcd lsb msb vn vd rn rd =>
    obtain ⟨raw, -, hf⟩ := bind_ok hf
    obtain ⟨_, hr, hf⟩ := bind_ok hf
    obtain ⟨_, hl, hf⟩ := bind_ok hf
    cases hf
    exact ⟨(validateRange_ok hr).wordRange, validateBitLength_ok hl, fun k => Iff.rfl⟩
  | setbnr lsb msb vn vd rn rd =>
    obtain ⟨n, -, hf⟩ := bind_ok hf
    obtain ⟨_, hr, hf⟩ := bind_ok hf
    obtain ⟨raw, hw, hf⟩ := bind_ok hf
    cases hf
    exact ⟨(validateRange_ok hr).wordRange, bnrWrap_lt hw, fun k => Iff.rfl⟩
  | _ => cases h

/-! ## What a completed command has written -/

/-- The staged writes of a command: nothing, one field of W, RINT, RQ, or all of them (R58). -/
inductive Staged (i : Instr) (s : State) : State → Prop where
  | nothing : writesW i = false → writesRint i = false → writesRq i = false → Staged i s s
  | word (lsb msb raw : Nat) : isSetter i = true → setterField s.params i = .ok (lsb, msb, raw) →
      Staged i s (commit s (merge s.w lsb msb raw))
  | rint (v : Int) : writesRint i = true → writesW i = false → writesRq i = false → RintHolds s.params.rw v →
      Staged i s { s with rint := v }
  | rq (v : Rat) : writesRq i = true → writesW i = false → writesRint i = false → Staged i s { s with rq := v }
  | all : i = .new → Staged i s { s with w := 0x80000000#32, rint := 0, rq := 0 }

/-- Errors a decoded command can raise: any but ILLEGAL (R162). -/
def raisedByCommand : CmdError → Prop
  | .illegal => False
  | _ => True

/-- A part of a command that raises nothing but the errors a decoded command can raise. -/
def Decoded {α : Type} (x : Except CmdError α) : Prop := ∀ e, x = .error e → raisedByCommand e

theorem Decoded.bind {α β : Type} {x : Except CmdError α} {f : α → Except CmdError β} (hx : Decoded x)
    (hf : ∀ a, Decoded (f a)) : Decoded (x >>= f) := by
  cases x with
  | ok a => exact hf a
  | error e => intro e' h; cases h; exact hx e rfl

theorem decoded_ok {α : Type} (a : α) : Decoded (Except.ok a : Except CmdError α) := fun _ h => nomatch h

theorem decoded_error {α : Type} {e : CmdError} (h : raisedByCommand e) : Decoded (Except.error e : Except CmdError α) :=
  fun _ h' => by cases h'; exact h

theorem decoded_ite {α : Type} {c : Prop} [Decidable c] {x y : Except CmdError α} (hx : Decoded x) (hy : Decoded y) :
    Decoded (if c then x else y) := by split <;> assumption

theorem decoded_validUnsigned (a : Int) : Decoded (validUnsigned a) := decoded_ite (decoded_error trivial) (decoded_ok _)

theorem decoded_validResolution (n : Int) (d : Nat) : Decoded (validResolution n d) :=
  decoded_ite (decoded_error trivial) (decoded_ite (decoded_error trivial) (decoded_ok _))

theorem decoded_validValue (n : Int) (d : Nat) : Decoded (validValue n d) :=
  decoded_ite (decoded_error trivial) (decoded_ok _)

theorem decoded_validateRange (l m : Nat) : Decoded (validateRange l m) :=
  decoded_ite (decoded_error trivial) (decoded_ok _)

theorem decoded_validateBitLength (r l : Nat) : Decoded (validateBitLength r l) :=
  decoded_ite (decoded_error trivial) (decoded_ok _)

theorem decoded_bnrWrap (n : Int) (w : Nat) : Decoded (bnrWrap n w) := decoded_ite (decoded_error trivial) (decoded_ok _)

theorem decoded_putRint (s : State) (v : Int) : Decoded (putRint s v) := decoded_ite (decoded_ok _) (decoded_error trivial)

theorem decoded_bcdUnpack (m : MalformedPolicy) (raw : Nat) : Decoded (bcdUnpack m raw) := by
  cases m
  · exact decoded_ok _
  · exact decoded_ite (decoded_error trivial) (decoded_ok _)

theorem decoded_bcdEncode (p : Params) (vn : Int) (vd : Nat) (rn : Int) (rd : Nat) : Decoded (bcdEncode p vn vd rn rd) :=
  (decoded_validResolution rn rd).bind fun _ => (decoded_validValue vn vd).bind fun v => by
    by_cases hv : v < 0
    · simp only [hv, if_true]; exact decoded_error trivial
    · simp only [hv, if_false]; exact decoded_ok _

theorem decoded_bnrEncode (p : Params) (vn : Int) (vd : Nat) (rn : Int) (rd : Nat) : Decoded (bnrEncode p vn vd rn rd) :=
  (decoded_validResolution rn rd).bind fun _ => (decoded_validValue vn vd).bind fun _ => decoded_ok _

theorem decoded_bcdDecode (p : Params) (raw : Int) (ss : BitVec 2) (rn : Int) (rd : Nat) :
    Decoded (bcdDecode p raw ss rn rd) :=
  (decoded_validResolution rn rd).bind fun _ => (decoded_validUnsigned raw).bind fun _ =>
    (decoded_bcdUnpack _ _).bind fun _ => decoded_ok _

theorem decoded_bnrDecode (raw : Int) (bc : Nat) (rn : Int) (rd : Nat) : Decoded (bnrDecode raw bc rn rd) :=
  (decoded_validResolution rn rd).bind fun _ => (decoded_validUnsigned raw).bind fun r => by
    by_cases hb : bc = 0
    · simp only [hb, if_true]; exact decoded_error trivial
    · simp only [hb, if_false]; exact (decoded_validateBitLength r bc).bind fun _ => decoded_ok _

theorem decoded_setterField (p : Params) (i : Instr) : Decoded (setterField p i) := by
  cases i with
  | setlbl a => exact decoded_ite (decoded_error trivial) (decoded_ok _)
  | setdisc lsb msb a =>
    exact (decoded_validUnsigned a).bind fun _ => (decoded_validateRange _ _).bind fun _ =>
      (decoded_validateBitLength _ _).bind fun _ => decoded_ok _
  | setbcd lsb msb vn vd rn rd =>
    exact (decoded_bcdEncode _ _ _ _ _).bind fun _ => (decoded_validateRange _ _).bind fun _ =>
      (decoded_validateBitLength _ _).bind fun _ => decoded_ok _
  | setbnr lsb msb vn vd rn rd =>
    exact (decoded_bnrEncode _ _ _ _ _).bind fun _ => (decoded_validateRange _ _).bind fun _ =>
      (decoded_bnrWrap _ _).bind fun _ => decoded_ok _
  | _ => exact decoded_ok _

/-- A command is the settling of a part that raises only decoded errors and stages only what its opcode may write. -/
theorem settle_staged {i : Instr} {s : State} {r : Except CmdError State} (h : Decoded r)
    (hs : ∀ u, r = .ok u → Staged i s u) :
    (∃ u, Staged i s u ∧ settle s r = .next (complete u)) ∨
    (∃ e, raisedByCommand e ∧ settle s r = .next (abort e s)) := by
  cases r with
  | ok u => exact .inl ⟨u, hs u rfl, rfl⟩
  | error e => exact .inr ⟨e, h e rfl, rfl⟩

/-- The commands that end in `putRint` stage RINT and nothing else. -/
theorem staged_putRint {i : Instr} {s : State} {α : Type} {x : Except CmdError α} {g : α → Int}
    (h1 : writesRint i = true) (h2 : writesW i = false) (h3 : writesRq i = false) {u : State}
    (hu : (x >>= fun a => putRint s (g a)) = .ok u) : Staged i s u := by
  obtain ⟨a, -, hu⟩ := bind_ok hu
  obtain ⟨hf, rfl⟩ := putRint_ok hu
  exact .rint _ h1 h2 h3 ((fitsRint_iff _ _).mp hf)

/-- What `exec` can answer: the completion of its staged writes, or the abort of an error other than ILLEGAL. -/
theorem exec_next (i : Instr) (s : State) :
    (∃ u, Staged i s u ∧ exec i s = .next (complete u)) ∨
    (∃ e, raisedByCommand e ∧ exec i s = .next (abort e s)) := by
  by_cases hset : isSetter i = true
  · rw [exec_setter hset]
    cases hf : setterField s.params i with
    | ok f => exact .inl ⟨_, .word f.1 f.2.1 f.2.2 hset hf, rfl⟩
    | error e => exact .inr ⟨e, decoded_setterField _ _ e hf, rfl⟩
  · cases i with
    | nop => exact .inl ⟨s, .nothing rfl rfl rfl, rfl⟩
    | new => exact .inl ⟨_, .all rfl, rfl⟩
    | getfld lsb msb =>
      exact settle_staged ((decoded_validateRange _ _).bind fun _ => decoded_putRint _ _)
        fun u hu => staged_putRint rfl rfl rfl hu
    | encdisc a =>
      exact settle_staged ((decoded_validUnsigned _).bind fun _ => decoded_putRint _ _)
        fun u hu => staged_putRint rfl rfl rfl hu
    | encbcd vn vd rn rd =>
      exact settle_staged ((decoded_bcdEncode _ _ _ _ _).bind fun _ => decoded_putRint _ _)
        fun u hu => staged_putRint rfl rfl rfl hu
    | encbnr vn vd rn rd =>
      exact settle_staged ((decoded_bnrEncode _ _ _ _ _).bind fun _ => decoded_putRint _ _)
        fun u hu => staged_putRint rfl rfl rfl hu
    | decdisc a =>
      exact settle_staged ((decoded_validUnsigned _).bind fun _ => decoded_putRint _ _)
        fun u hu => staged_putRint rfl rfl rfl hu
    | decbcd a ss rn rd =>
      refine settle_staged ((decoded_bcdDecode _ _ _ _ _).bind fun _ => decoded_ok _) fun u hu => ?_
      obtain ⟨v, -, hu⟩ := bind_ok hu
      cases hu
      exact .rq v rfl rfl rfl
    | decbnr a cnt rn rd =>
      refine settle_staged ((decoded_bnrDecode _ _ _ _).bind fun _ => decoded_ok _) fun u hu => ?_
      obtain ⟨v, -, hu⟩ := bind_ok hu
      cases hu
      exact .rq v rfl rfl rfl
    | pargen a =>
      refine settle_staged (decoded_putRint _ _) fun u hu => ?_
      obtain ⟨hf, rfl⟩ := putRint_ok hu
      exact .rint _ rfl rfl rfl ((fitsRint_iff _ _).mp hf)
    | valrng lsb msb =>
      refine settle_staged ((decoded_validateRange _ _).bind fun _ => decoded_ok _) fun u hu => ?_
      obtain ⟨_, -, hu⟩ := bind_ok hu
      cases hu
      exact .nothing rfl rfl rfl
    | vallen a cnt =>
      refine settle_staged ((decoded_validUnsigned _).bind fun _ => (decoded_validateBitLength _ _).bind fun _ =>
        decoded_ok _) fun u hu => ?_
      obtain ⟨_, -, hu⟩ := bind_ok hu
      obtain ⟨_, -, hu⟩ := bind_ok hu
      cases hu
      exact .nothing rfl rfl rfl
    | _ => exact absurd rfl hset

end Sys2Proof.Machine
end

