-- ==== Sys2Proof/Laws/PerInstr.lean ====
section
/-! SUPPORT. Per-instruction facts about encodings, one lemma per constructor of `Instr`. Family `TableMask`: the opcode
table's mask, read on the encoder's header, leaves the row's match (R57, R58). -/

namespace Sys2Proof.Laws.TableMask

/-- The header an instruction is encoded with matches its own row of the opcode table, whatever its operands. -/
def Statement (i : Instr) : Prop := ∀ p : Params, (encode p i).header &&& 0xFF80001F#32 = i.opcode.setWidth 32

theorem nop : Statement .nop := fun _ => assemble_mask _ _ _ _ _

theorem new : Statement .new := fun _ => assemble_mask _ _ _ _ _

theorem setlbl (a : Int) : Statement (.setlbl a) := fun _ => assemble_mask _ _ _ _ _

theorem setsdi (ss : BitVec 2) : Statement (.setsdi ss) := fun _ => assemble_mask _ _ _ _ _

theorem setssm (ss : BitVec 2) : Statement (.setssm ss) := fun _ => assemble_mask _ _ _ _ _

theorem setdisc (lsb msb : BitVec 5) (a : Int) : Statement (.setdisc lsb msb a) := fun _ => assemble_mask _ _ _ _ _

theorem setbcd (lsb msb : BitVec 5) (vn : Int) (vd : Nat) (rn : Int) (rd : Nat) : Statement (.setbcd lsb msb vn vd rn rd) := fun _ => assemble_mask _ _ _ _ _

theorem setbnr (lsb msb : BitVec 5) (vn : Int) (vd : Nat) (rn : Int) (rd : Nat) : Statement (.setbnr lsb msb vn vd rn rd) := fun _ => assemble_mask _ _ _ _ _

theorem getfld (lsb msb : BitVec 5) : Statement (.getfld lsb msb) := fun _ => assemble_mask _ _ _ _ _

theorem encdisc (a : Int) : Statement (.encdisc a) := fun _ => assemble_mask _ _ _ _ _

theorem encbcd (vn : Int) (vd : Nat) (rn : Int) (rd : Nat) : Statement (.encbcd vn vd rn rd) := fun _ => assemble_mask _ _ _ _ _

theorem encbnr (vn : Int) (vd : Nat) (rn : Int) (rd : Nat) : Statement (.encbnr vn vd rn rd) := fun _ => assemble_mask _ _ _ _ _

theorem decdisc (a : Int) : Statement (.decdisc a) := fun _ => assemble_mask _ _ _ _ _

theorem decbcd (a : Int) (ss : BitVec 2) (rn : Int) (rd : Nat) : Statement (.decbcd a ss rn rd) := fun _ => assemble_mask _ _ _ _ _

theorem decbnr (a : Int) (cnt : BitVec 6) (rn : Int) (rd : Nat) : Statement (.decbnr a cnt rn rd) := fun _ => assemble_mask _ _ _ _ _

theorem pargen (a : Int) : Statement (.pargen a) := fun _ => assemble_mask _ _ _ _ _

theorem valrng (lsb msb : BitVec 5) : Statement (.valrng lsb msb) := fun _ => assemble_mask _ _ _ _ _

theorem vallen (a : Int) (cnt : BitVec 6) : Statement (.vallen a cnt) := fun _ => assemble_mask _ _ _ _ _

end Sys2Proof.Laws.TableMask
end

