-- ==== Sys2Proof/Laws/TwoStates.lean ====
section
/-! SUPPORT. One command on two states: its outcome is the same, and what it stages is the same, whenever the states agree on
the parameters and, for GETFLD, on W. -/

namespace Sys2Proof.Machine

/-- How one command acts on two states. -/
inductive Alike (i : Instr) (s s' : State) : Prop where
  /-- The same error in both. -/
  | raises (e : CmdError) : exec i s = .next (abort e s) → exec i s' = .next (abort e s') → Alike i s s'
  /-- Nothing written in either. -/
  | nothing : writesW i = false → writesRint i = false → writesRq i = false →
      exec i s = .next (complete s) → exec i s' = .next (complete s') → Alike i s s'
  /-- The same RINT in both. -/
  | rint (v : Int) : writesW i = false → writesRq i = false →
      exec i s = .next (complete { s with rint := v }) → exec i s' = .next (complete { s' with rint := v }) → Alike i s s'
  /-- The same RQ in both. -/
  | rq (v : Rat) : writesW i = false → writesRint i = false →
      exec i s = .next (complete { s with rq := v }) → exec i s' = .next (complete { s' with rq := v }) → Alike i s s'
  /-- The same field of W with the same raw value in both. -/
  | word (lsb msb raw : Nat) : isSetter i = true → WordRange lsb msb → raw < 2 ^ width lsb msb →
      (∀ k, mayWriteBit i k ↔ lsb ≤ k ∧ k ≤ msb) →
      exec i s = .next (complete (commit s (merge s.w lsb msb raw))) →
      exec i s' = .next (complete (commit s' (merge s'.w lsb msb raw))) → Alike i s s'
  /-- NEW. -/
  | all : i = .new → Alike i s s'

/-- A part followed by `putRint` acts alike on both states. -/
theorem alike_putRint {α : Type} {i : Instr} {s s' : State} (hp : s.params = s'.params) {x : Except CmdError α}
    {g : α → Int} (h : exec i s = settle s (x >>= fun a => putRint s (g a)))
    (h' : exec i s' = settle s' (x >>= fun a => putRint s' (g a))) (h1 : writesW i = false) (h2 : writesRq i = false) :
    Alike i s s' := by
  cases x with
  | error e => exact .raises e h h'
  | ok a =>
    rw [ok_bind] at h h'
    cases hf : fitsRint s.params.rw (g a) with
    | true => rw [putRint_fits hf] at h; rw [putRint_fits (hp ▸ hf)] at h'; exact .rint _ h1 h2 h h'
    | false => rw [putRint_overflow hf] at h; rw [putRint_overflow (hp ▸ hf), ← hp] at h'; exact .raises _ h h'

/-- Every command acts alike on two states with the same parameters, if W is the same for those that read it; a setter
needs no such premise, since the field and raw value it writes do not depend on W. -/
theorem exec_alike (i : Instr) {s s' : State} (hp : s.params = s'.params)
    (hw : readsW i = true → isSetter i = false → s.w = s'.w) : Alike i s s' := by
  by_cases hset : isSetter i = true
  · have h := exec_setter hset s
    have h' := exec_setter hset s'
    rw [← hp] at h'
    cases hf : setterField s.params i with
    | error e => rw [hf] at h h'; exact .raises e h h'
    | ok f =>
      rw [hf] at h h'
      obtain ⟨a, b, c⟩ := setterField_ok hset hf
      exact .word f.1 f.2.1 f.2.2 hset a b c h h'
  · cases i with
    | nop => exact .nothing rfl rfl rfl rfl rfl
    | new => exact .all rfl
    | getfld lsb msb =>
      have e : fld s.w lsb.toNat msb.toNat = fld s'.w lsb.toNat msb.toNat := by rw [hw rfl rfl]
      refine alike_putRint (x := validateRange lsb.toNat msb.toNat) (g := fun _ => fld s'.w lsb.toNat msb.toNat) hp
        ?_ rfl rfl rfl
      rw [← e]; rfl
    | encdisc a => exact alike_putRint (x := discEncode a) (g := fun n => (n : Int)) hp rfl rfl rfl rfl
    | encbcd vn vd rn rd =>
      exact alike_putRint (x := bcdEncode s.params vn vd rn rd) (g := fun n => (n : Int)) hp rfl (by rw [hp]; rfl) rfl rfl
    | encbnr vn vd rn rd =>
      exact alike_putRint (x := bnrEncode s.params vn vd rn rd) (g := fun n => n) hp rfl (by rw [hp]; rfl) rfl rfl
    | decdisc a => exact alike_putRint (x := discDecode a) (g := fun n => (n : Int)) hp rfl rfl rfl rfl
    | decbcd a ss rn rd =>
      cases hx : bcdDecode s.params a ss rn rd with
      | error e => exact .raises e (by simp [exec, execDecbcd, hx]) (by simp [exec, execDecbcd, ← hp, hx])
      | ok v => exact .rq v rfl rfl (by simp [exec, execDecbcd, hx]) (by simp [exec, execDecbcd, ← hp, hx])
    | decbnr a cnt rn rd =>
      cases hx : bnrDecode a cnt.toNat rn rd with
      | error e => exact .raises e (by simp [exec, execDecbnr, hx]) (by simp [exec, execDecbnr, hx])
      | ok v => exact .rq v rfl rfl (by simp [exec, execDecbnr, hx]) (by simp [exec, execDecbnr, hx])
    | pargen a =>
      exact alike_putRint (x := .ok ()) (g := fun _ => (withParity (BitVec.ofInt 31 a)).toNat) hp rfl rfl rfl rfl
    | valrng lsb msb =>
      cases hx : validateRange lsb.toNat msb.toNat with
      | error e => exact .raises e (by simp [exec, execValrng, hx]) (by simp [exec, execValrng, hx])
      | ok _ => exact .nothing rfl rfl rfl (by simp [exec, execValrng, hx]) (by simp [exec, execValrng, hx])
    | vallen a cnt =>
      cases hx : validUnsigned a with
      | error e => exact .raises e (by simp [exec, execVallen, hx]) (by simp [exec, execVallen, hx])
      | ok v =>
        cases hy : validateBitLength v cnt.toNat with
        | error e => exact .raises e (by simp [exec, execVallen, hx, hy]) (by simp [exec, execVallen, hx, hy])
        | ok _ => exact .nothing rfl rfl rfl (by simp [exec, execVallen, hx, hy]) (by simp [exec, execVallen, hx, hy])
    | _ => exact absurd rfl hset

/-- A setter that completed in one state completes in every state with the same parameters, writing the same raw value to
the same field. -/
theorem setter_completes {i : Instr} (h : isSetter i = true) {s t : State} (he : exec i s = .next t)
    (h0 : t.status = 0#3) :
    ∃ lsb msb raw, WordRange lsb msb ∧ raw < 2 ^ width lsb msb ∧ (∀ k, mayWriteBit i k ↔ lsb ≤ k ∧ k ≤ msb) ∧
      ∀ s', s'.params = s.params → exec i s' = .next (complete (commit s' (merge s'.w lsb msb raw))) := by
  cases hf : setterField s.params i with
  | error e =>
    rw [exec_setter h, hf] at he
    cases he
    cases e <;> exact absurd h0 (show _ ≠ _ by simp [CmdError.code])
  | ok f =>
    obtain ⟨a, b, c⟩ := setterField_ok h hf
    refine ⟨f.1, f.2.1, f.2.2, a, b, c, fun s' hp => ?_⟩
    rw [exec_setter h, hp, hf]
    rfl

end Sys2Proof.Machine
end

