-- ==== Sys2Proof/Tests/Slice0.lean ====
section
/-! SUPPORT. The model's own tests: what `wellFormed` refuses, every constructor's decoding from a word written out field by
field from 30_encoding.md R51 and R58, one or two vectors of 95_test_vectors.md per opcode (source noted at each), and a
witness for the hypotheses of every claim. -/

namespace Sys2Proof.Tests

-- One theorem at a time: a thread per `decide` costs a gigabyte of address space each.
set_option Elab.async false

open Sys2Proof.Machine

/-! ## Helpers -/

/-- The next state of an outcome, if it is one. -/
def nextOf : Host.Outcome State Fault Refusal → Option State
  | .next t => some t
  | .fault _ => none
  | .refused _ => none

theorem next_of_nextOf {o : Host.Outcome State Fault Refusal} {t : State} (h : nextOf o = some t) : o = .next t := by
  cases o <;> simp_all [nextOf]

/-- The reset state with another word. -/
def withWord (w : Word) : State := { State.reset with w := w }

/-- The reset state with other parameters. -/
def withParams (p : Params) : State := { State.reset with params := p }

/-- The block with ROUND_MODE = TOWARD_ZERO. -/
def truncating : State := withParams { roundMode := .towardZero }

/-- The block with RW = 33, its smallest legal width. -/
def narrow : State := withParams { rw := .bits 33 }

/-- The block with BCD_MALFORMED = ERROR. -/
def strict : State := withParams { bcdMalformed := .error }

/-- `s` after a step in which the command is presented, leaving nothing at the inputs. -/
def after (c : Command) (s : State) : Option State := nextOf (step (present c s))

/-- A header written field by field: RSV, CNT, SS, MSB, LSB, OP from the most significant end (R51). -/
def bits (rsv : BitVec 9) (cnt : BitVec 6) (ss : BitVec 2) (msb lsb op : BitVec 5) : Header :=
  (rsv ++ cnt ++ ss ++ msb ++ lsb ++ op : BitVec (9 + 6 + 2 + 5 + 5 + 5))

/-! ## `wellFormed` refuses an operand that does not fit its slot (R53, AW = 64) -/

theorem test_wf_a_too_large : (Instr.setlbl (2 ^ 63)).wellFormed .defaults = false := by decide
theorem test_wf_a_too_small : (Instr.setdisc 11 12 (-2 ^ 63 - 1)).wellFormed .defaults = false := by decide
theorem test_wf_encdisc : (Instr.encdisc (2 ^ 63)).wellFormed .defaults = false := by decide
theorem test_wf_decdisc : (Instr.decdisc (2 ^ 63)).wellFormed .defaults = false := by decide
theorem test_wf_pargen : (Instr.pargen (2 ^ 63)).wellFormed .defaults = false := by decide
theorem test_wf_vallen : (Instr.vallen (2 ^ 63) 1).wellFormed .defaults = false := by decide
theorem test_wf_setbcd_vn : (Instr.setbcd 11 12 (2 ^ 63) 1 1 1).wellFormed .defaults = false := by decide
theorem test_wf_setbcd_rd : (Instr.setbcd 11 12 1 1 1 (2 ^ 64)).wellFormed .defaults = false := by decide
theorem test_wf_setbnr_vd : (Instr.setbnr 11 12 1 (2 ^ 64) 1 1).wellFormed .defaults = false := by decide
theorem test_wf_setbnr_rn : (Instr.setbnr 11 12 1 1 (-2 ^ 63 - 1) 1).wellFormed .defaults = false := by decide
theorem test_wf_encbcd_vd : (Instr.encbcd 1 (2 ^ 64) 1 1).wellFormed .defaults = false := by decide
theorem test_wf_encbnr_rn : (Instr.encbnr 1 1 (2 ^ 63) 1).wellFormed .defaults = false := by decide
theorem test_wf_decbcd_a : (Instr.decbcd (2 ^ 63) 0 1 1).wellFormed .defaults = false := by decide
theorem test_wf_decbcd_rd : (Instr.decbcd 1 0 1 (2 ^ 64)).wellFormed .defaults = false := by decide
theorem test_wf_decbnr_a : (Instr.decbnr (2 ^ 63) 17 1 1).wellFormed .defaults = false := by decide
theorem test_wf_decbnr_rn : (Instr.decbnr 1 17 (2 ^ 63) 1).wellFormed .defaults = false := by decide
theorem test_wf_accepts_edges : (Instr.setbnr 0 31 (-2 ^ 63) 0 (2 ^ 63 - 1) (2 ^ 64 - 1)).wellFormed .defaults = true := by decide

/-! ## Decoding, one constructor each (R51, R58; operand slots as in 95_test_vectors.md) -/

theorem test_decode_nop : decode .defaults ⟨bits 0 0 0 0 0 0b00000, 0, 0, 0, 0, 0⟩ = some .nop := by decide
theorem test_decode_new : decode .defaults ⟨bits 0 0 0 0 0 0b00001, 0, 0, 0, 0, 0⟩ = some .new := by decide
theorem test_decode_setlbl : decode .defaults ⟨bits 0 0 0 0 0 0b00010, 255, 0, 0, 0, 0⟩ = some (.setlbl 255) := by decide
theorem test_decode_setsdi : decode .defaults ⟨bits 0 0 0b10 0 0 0b00011, 0, 0, 0, 0, 0⟩ = some (.setsdi 2) := by decide
theorem test_decode_setssm : decode .defaults ⟨bits 0 0 0b11 0 0 0b00100, 0, 0, 0, 0, 0⟩ = some (.setssm 3) := by decide
theorem test_decode_setdisc :
    decode .defaults ⟨bits 0 0 0 0b01101 0b01011 0b00101, 6, 0, 0, 0, 0⟩ = some (.setdisc 11 13 6) := by decide
theorem test_decode_setbcd :
    decode .defaults ⟨bits 0 0 0 0b11101 0b01011 0b00110, 0, 1215, 10, 1, 10⟩ = some (.setbcd 11 29 1215 10 1 10) := by decide
theorem test_decode_setbnr :
    decode .defaults ⟨bits 0 0 0 0b11101 0b01101 0b00111, 0, 2 ^ 64 - 90, 1, 43945313, 1000000000⟩ =
      some (.setbnr 13 29 (-90) 1 43945313 1000000000) := by decide
theorem test_decode_getfld : decode .defaults ⟨bits 0 0 0 0b01010 0b01001 0b01000, 0, 0, 0, 0, 0⟩ = some (.getfld 9 10) := by decide
theorem test_decode_encdisc : decode .defaults ⟨bits 0 0 0 0 0 0b01001, 2 ^ 64 - 1, 0, 0, 0, 0⟩ = some (.encdisc (-1)) := by decide
theorem test_decode_encbcd : decode .defaults ⟨bits 0 0 0 0 0 0b01010, 0, 4, 100, 1, 10⟩ = some (.encbcd 4 100 1 10) := by decide
theorem test_decode_encbnr :
    decode .defaults ⟨bits 0 0 0 0 0 0b01011, 0, 2 ^ 64 - 5, 10, 1, 1⟩ = some (.encbnr (-5) 10 1 1) := by decide
theorem test_decode_decdisc : decode .defaults ⟨bits 0 0 0 0 0 0b01100, 2 ^ 64 - 5, 0, 0, 0, 0⟩ = some (.decdisc (-5)) := by decide
theorem test_decode_decbcd :
    decode .defaults ⟨bits 0 0 0b01 0 0 0b01101, 0x1215, 0, 0, 1, 10⟩ = some (.decbcd 0x1215 1 1 10) := by decide
theorem test_decode_decbnr :
    decode .defaults ⟨bits 0 0b010001 0 0 0 0b01110, 0x1F800, 0, 0, 1, 1⟩ = some (.decbnr 0x1F800 17 1 1) := by decide
theorem test_decode_pargen : decode .defaults ⟨bits 0 0 0 0 0 0b01111, 0x485401, 0, 0, 0, 0⟩ = some (.pargen 0x485401) := by decide
theorem test_decode_valrng : decode .defaults ⟨bits 0 0 0 0b11110 0b01100 0b10000, 0, 0, 0, 0, 0⟩ = some (.valrng 12 30) := by decide
theorem test_decode_vallen :
    decode .defaults ⟨bits 0 0b111111 0 0 0 0b10001, 2 ^ 63 - 1, 0, 0, 0, 0⟩ = some (.vallen (2 ^ 63 - 1) 63) := by decide
/-- R56: the lowest reserved bit set makes NOP illegal; 0x1F is reserved. -/
theorem test_decode_illegal : decode .defaults ⟨bits 1 0 0 0 0 0, 0, 0, 0, 0, 0⟩ = none ∧
    decode .defaults ⟨bits 0 0 0 0 0 0b11111, 0, 0, 0, 0, 0⟩ = none := by decide
/-- The spec's own numbers for those headers (V-S1, V-S3, section 2). -/
theorem test_header_numbers : bits 0 0 0 0b01101 0b01011 0b00101 = 0x00003565#32 ∧ bits 0 0 0 0b11101 0b01101 0b00111 = 0x000075A7#32 ∧
    bits 0 0b010001 0 0 0 0b01110 = 0x0022000E#32 ∧ bits 0 0 0b11 0 0 0b01101 = 0x0001800D#32 := by decide

/-! ## One step each, from the tables of 95_test_vectors.md -/

/-- 2.6: NOP; R130: it clears the status an error left. -/
theorem test_nop : after ⟨0x00000000#32, 0, 0, 0, 0, 0⟩ (reporting (withWord 0x80001800#32) 2#3 6 2) =
    some (withWord 0x80001800#32) := by decide
/-- 2.5: NEW, "all registers reset". -/
theorem test_new : after ⟨0x00000001#32, 0, 0, 0, 0, 0⟩ { withWord 0x1FFC3C00#32 with rint := 5, rq := 7 } = some State.reset := by
  decide
/-- V-S2. -/
theorem test_setlbl : after ⟨0x00000002#32, 255, 0, 0, 0, 0⟩ State.reset = some (withWord 0x800000FF#32) := by decide
/-- V-S2: 0o400 is refused and W is unchanged. -/
theorem test_setlbl_range : after ⟨0x00000002#32, 256, 0, 0, 0, 0⟩ (withWord 0x800000FF#32) =
    some (reporting (withWord 0x800000FF#32) 1#3 0 0) := by decide
/-- 2.5: SETSDI 3 after SETSDI 2. -/
theorem test_setsdi : after ⟨0x00018003#32, 0, 0, 0, 0, 0⟩ (withWord 0x00000200#32) = some (withWord 0x80000300#32) := by decide
/-- 2.5: SETSSM 1 after SETSSM 3. -/
theorem test_setssm : after ⟨0x00008004#32, 0, 0, 0, 0, 0⟩ (withWord 0xE0000000#32) = some (withWord 0x20000000#32) := by decide
/-- 2.5: SETDISC 29, 29, 1 on 0x80000C00. -/
theorem test_setdisc : after ⟨0x000077A5#32, 1, 0, 0, 0, 0⟩ (withWord 0x80000C00#32) = some (withWord 0x10000C00#32) := by decide
/-- 2.5: SETDISC 10, 12, -1: ValueError wins over RangeError. -/
theorem test_setdisc_priority : after ⟨0x00003145#32, 2 ^ 64 - 1, 0, 0, 0, 0⟩ (withWord 0x80000C00#32) =
    some (reporting (withWord 0x80000C00#32) 3#3 0 0) := by decide
/-- V-S4 step 2. -/
theorem test_setbcd : after ⟨0x00007566#32, 0, 1215, 10, 1, 10⟩ (withWord 0x00000001#32) = some (withWord 0x80485401#32) := by
  decide +kernel
/-- 2.5: SETBCD 11, 29, 80000, 1. -/
theorem test_setbcd_overflow : after ⟨0x00007566#32, 0, 80000, 1, 1, 1⟩ (withWord 0x1E666400#32) =
    some (reporting (withWord 0x1E666400#32) 2#3 524288 19) := by decide +kernel
/-- V-S3 step 1, both rounding modes. -/
theorem test_setbnr : after ⟨0x000075A7#32, 0, 90, 1, 43945313, 1000000000⟩ State.reset = some (withWord 0x00800000#32) ∧
    (after ⟨0x000075A7#32, 0, 90, 1, 43945313, 1000000000⟩ truncating).map State.w = some 0x007FF000#32 := by decide +kernel
/-- 2.5: SETBNR 13, 29, -65537, 1. -/
theorem test_setbnr_overflow : after ⟨0x000075A7#32, 0, 2 ^ 64 - 65537, 1, 1, 1⟩ (withWord 0x10000000#32) =
    some (reporting (withWord 0x10000000#32) 2#3 (-65537) 17) := by decide +kernel
/-- 2.5: GETFLD 13, 29 on 0x9F800000. -/
theorem test_getfld : (after ⟨0x000075A8#32, 0, 0, 0, 0, 0⟩ (withWord 0x9F800000#32)).map State.rint = some 0x1F800 := by decide
/-- 2.5: GETFLD 9, 10 is refused, RINT unchanged. -/
theorem test_getfld_range : after ⟨0x00002928#32, 0, 0, 0, 0, 0⟩ { State.reset with rint := 9 } =
    some (reporting { State.reset with rint := 9 } 1#3 0 0) := by decide
/-- 2.2: ENCDISC 2^63 - 1. -/
theorem test_encdisc : (after ⟨0x00000009#32, 2 ^ 63 - 1, 0, 0, 0, 0⟩ State.reset).map State.rint = some 0x7FFFFFFFFFFFFFFF := by decide
/-- R81, R92: with RW = 33, 2^32 does not fit RINT. -/
theorem test_encdisc_narrow : after ⟨0x00000009#32, 2 ^ 32, 0, 0, 0, 0⟩ narrow = some (reporting narrow 2#3 (2 ^ 32) 33) := by decide
/-- 2.3: ENCBCD 99.995, 0.01: a tie that carries into a fifth digit. -/
theorem test_encbcd : (after ⟨0x0000000A#32, 0, 99995, 1000, 1, 100⟩ State.reset).map State.rint = some 0x10000 := by decide +kernel
/-- 2.3: ENCBCD 1, -0.1. -/
theorem test_encbcd_resolution : after ⟨0x0000000A#32, 0, 1, 1, 2 ^ 64 - 1, 10⟩ State.reset = some (reporting State.reset 3#3 0 0) := by
  decide +kernel
/-- 2.4: ENCBNR -0.5, 1, a tie, in both rounding modes. -/
theorem test_encbnr : (after ⟨0x0000000B#32, 0, 2 ^ 64 - 5, 10, 1, 1⟩ State.reset).map State.rint = some (-1) ∧
    (after ⟨0x0000000B#32, 0, 2 ^ 64 - 5, 10, 1, 1⟩ truncating).map State.rint = some 0 := by decide +kernel
/-- 2.2: DECDISC -5, RINT unchanged. -/
theorem test_decdisc : after ⟨0x0000000C#32, 2 ^ 64 - 5, 0, 0, 0, 0⟩ { State.reset with rint := 4 } =
    some (reporting { State.reset with rint := 4 } 3#3 0 0) := by decide
/-- 2.3: DECBCD 0x1215, 3, 0.1. -/
theorem test_decbcd : (after ⟨0x0001800D#32, 0x1215, 0, 0, 1, 10⟩ State.reset).map State.rq = some (-243 / 2) := by decide +kernel
/-- 2.3: DECBCD 0x1A, 0, 1 under both policies; 20 is the spec's vector, and no claim rests on it (log entry 6). -/
theorem test_decbcd_malformed : (after ⟨0x0000000D#32, 0x1A, 0, 0, 1, 1⟩ State.reset).map State.rq = some 20 ∧
    after ⟨0x0000000D#32, 0x1A, 0, 0, 1, 1⟩ strict = some (reporting strict 4#3 0 0) := by decide +kernel
/-- 2.4: DECBNR 0x1F800, 17 and 18 (R120: a width mismatch is no error). -/
theorem test_decbnr : (after ⟨0x0022000E#32, 0x1F800, 0, 0, 43945313, 1000000000⟩ State.reset).map State.rq = some (-175781252 / 1953125) ∧
    (after ⟨0x0024000E#32, 0x1F800, 0, 0, 1, 1⟩ State.reset).map State.rq = some 129024 := by decide +kernel
/-- 2.4: DECBNR 2, 1, 1: raw wider than CNT. -/
theorem test_decbnr_overflow : after ⟨0x0002000E#32, 2, 0, 0, 1, 1⟩ State.reset = some (reporting State.reset 2#3 2 1) := by
  decide +kernel
/-- 2.5: PARGEN -1 and PARGEN 0x485401. -/
theorem test_pargen : (after ⟨0x0000000F#32, 2 ^ 64 - 1, 0, 0, 0, 0⟩ State.reset).map State.rint = some 0x7FFFFFFF ∧
    (after ⟨0x0000000F#32, 0x485401, 0, 0, 0, 0⟩ State.reset).map State.rint = some 0x80485401 := by decide
/-- 2.1: VALRNG 11, 29 and 12, 30. -/
theorem test_valrng : after ⟨0x00007570#32, 0, 0, 0, 0, 0⟩ State.reset = some State.reset ∧
    after ⟨0x00007990#32, 0, 0, 0, 0, 0⟩ State.reset = some (reporting State.reset 1#3 0 0) := by decide
/-- 2.1: VALLEN 7, 3 and 8, 3. -/
theorem test_vallen : after ⟨0x00060011#32, 7, 0, 0, 0, 0⟩ State.reset = some State.reset ∧
    after ⟨0x00060011#32, 8, 0, 0, 0, 0⟩ State.reset = some (reporting State.reset 2#3 8 3) := by decide
/-- 2.6: an illegal header reports 7 and changes nothing else. -/
theorem test_illegal : after ⟨0x80007566#32, 1, 1, 1, 1, 1⟩ (withWord 0x00000001#32) = some (reporting (withWord 0x00000001#32) 7#3 0 0) := by
  decide
/-- R180: a command shown while RST is asserted is not accepted. -/
theorem test_rst : nextOf (step { withWord 0x800000FF#32 with rint := 3, port := [⟨true, some ⟨0x00000002#32, 5, 0, 0, 0, 0⟩⟩] }) =
    some State.reset := by decide
/-- R31 on the end state of V-P1. -/
theorem test_ports : (withWord 0xE0485401#32).labelO = 1 ∧ (withWord 0xE0485401#32).sdiO = 0 ∧ (withWord 0xE0485401#32).dataO = 0x1215 ∧
    (withWord 0xE0485401#32).ssmO = 3 ∧ (withWord 0xE0485401#32).parO = 1 := by decide
/-- 2.1: round(2.5) = 3, round(-2.5) = -3, round(1/3) = 0; toward zero, round(-2.999) = -2. -/
theorem test_round : roundQ .nearestAway (5 / 2) = 3 ∧ roundQ .nearestAway (-5 / 2) = -3 ∧ roundQ .nearestAway (1 / 3) = 0 ∧
    roundQ .towardZero (-2999 / 1000) = -2 := by decide +kernel
/-- 2.1: the parity vectors. -/
theorem test_par : par 0 = 1 ∧ par 1 = 0 ∧ par 0x485401 = 1 ∧ par 0x7FFFFFFF = 0 := by decide
/-- The host's view: a table word runs as the first instruction after reset. -/
theorem test_fetch : decodeTableWord 32 0x00000003 = some (.setsdi 0) ∧
    nextOf (step (State.reset.withFetchWord 32 0x00000003)) = some State.reset := by decide

/-! ## Witnesses: states and operands that meet the hypotheses of each claim -/

theorem witness_AssertedResetAcceptsNoCommand :
    ∃ (s : State) (cmd : Option Command) (rest rest' : List PortSample) (c : Command) (i : Instr),
      s.port = ⟨true, cmd⟩ :: rest ∧ rest = ⟨false, some c⟩ :: rest' ∧ decode s.params c = some i :=
  ⟨{ withWord 0x800000FF#32 with port := [⟨true, some ⟨0, 0, 0, 0, 0, 0⟩⟩, ⟨false, some ⟨0x00000002#32, 1, 0, 0, 0, 0⟩⟩] },
    _, _, _, _, .setlbl 1, rfl, rfl, by decide⟩

theorem witness_SlotsReadTheirPortBits :
    Params.defaults.Legal ∧ 2 ^ 63 - 1 < 2 ^ Params.defaults.aw ∧ 2 ^ 64 - 1 < 2 ^ Params.defaults.aw ∧
    signedSlot .defaults (2 ^ 63 - 1) = 2 ^ 63 - 1 ∧ signedSlot .defaults (2 ^ 63) = -2 ^ 63 ∧
    signedSlot .defaults (2 ^ 64 - 1) = -1 := by decide

theorem witness_DecodeEncodeAgree :
    Params.defaults.Legal ∧ (Instr.setbnr 13 29 (-2 ^ 63) 1 (2 ^ 63 - 1) (2 ^ 64 - 1)).wellFormed .defaults = true ∧
    (encode .defaults (.setbnr 13 29 (-2 ^ 63) 1 (2 ^ 63 - 1) (2 ^ 64 - 1))).header = 0x000075A7#32 := by decide

theorem witness_DecoderOutputReencodes :
    Params.defaults.Legal ∧ decode .defaults ⟨0x00003165#32, 6, 7, 8, 9, 10⟩ = some (.setdisc 11 12 6) := by decide

theorem witness_UnusedFieldsAreIgnored : AgreeOnUsed ⟨0x00003165#32, 6, 7, 8, 9, 10⟩ ⟨0x007FB165#32, 6, 0, 0, 0, 0⟩ := by
  constructor <;> decide

theorem witness_StepRunsTheDecodedCommand :
    ∃ (s : State) (c : Command) (i : Instr) (rest : List PortSample),
      s.port = ⟨false, some c⟩ :: rest ∧ decode s.params c = some i :=
  ⟨present ⟨0x00003565#32, 6, 0, 0, 0, 0⟩ State.reset, _, .setdisc 11 13 6, _, rfl, by decide⟩

/-- Both clauses: RSV at its lowest bit with a legal opcode, and the first reserved opcode. -/
theorem witness_IllegalHeaderReportsIllegal :
    Header.rsv 0x00800000#32 ≠ 0#9 ∧ (Header.op 0x00800000#32).toNat < 0x12 ∧ 0x12 ≤ (Header.op 0x00000012#32).toNat ∧
    (present ⟨0x00000012#32, 0, 0, 0, 0, 0⟩ State.reset).port = [⟨false, some ⟨0x00000012#32, 0, 0, 0, 0, 0⟩⟩] := by decide

theorem witness_WaitingBlockKeepsItsRegisters :
    State.reset.port = [] ∧ ({ State.reset with port := [⟨false, none⟩] } : State).port = ⟨false, none⟩ :: [] := by decide

theorem witness_EveryStepKeepsInvariant : Inv (present ⟨0x00003565#32, 6, 0, 0, 0, 0⟩ State.reset) ∧
    step (present ⟨0x00003565#32, 6, 0, 0, 0, 0⟩ State.reset) = .next (withWord 0x80001800#32) :=
  ⟨⟨by decide, by decide, by decide, trivial, by decide⟩, next_of_nextOf (by decide)⟩

theorem witness_StepKeepsParametersTakesOneSample :
    step (present ⟨0x00003565#32, 6, 0, 0, 0, 0⟩ State.reset) = .next (withWord 0x80001800#32) := next_of_nextOf (by decide)

/-- Two states that share only W and the parameters, for a command that reads W; and two with different words, for one
that does not. -/
theorem witness_CommandDependsOnlyOnWordAndOperands :
    readsW (.getfld 11 13) = true ∧
    exec (.getfld 11 13) (withWord 0x80001800#32) = .next { withWord 0x80001800#32 with rint := 6 } ∧
    exec (.getfld 11 13) (reporting { withWord 0x80001800#32 with rq := 5 } 2#3 7 8) =
      .next { withWord 0x80001800#32 with rint := 6, rq := 5 } ∧
    readsW (.encdisc 3) = false ∧ exec (.encdisc 3) (withWord 0x00000001#32) = .next { withWord 0x00000001#32 with rint := 3 } ∧
    exec (.encdisc 3) State.reset = .next { State.reset with rint := 3 } :=
  ⟨by decide, next_of_nextOf (by decide), next_of_nextOf (by decide), by decide, next_of_nextOf (by decide),
    next_of_nextOf (by decide)⟩

theorem witness_AbortChangesOnlyTheOutcomeRegisters :
    exec (.setdisc 11 12 6) State.reset = .next (reporting State.reset 2#3 6 2) ∧ (reporting State.reset 2#3 6 2).status ≠ 0#3 ∧
    exec (.valrng 10 12) State.reset = .next (reporting State.reset 1#3 0 0) ∧ (reporting State.reset 1#3 0 0).status ≠ 2#3 :=
  ⟨next_of_nextOf (by decide), by decide, next_of_nextOf (by decide), by decide⟩

theorem witness_OnlyTheNamedOpcodesWrite :
    writesW (.getfld 11 13) = false ∧ writesRq (.getfld 11 13) = false ∧ writesRint (.setsdi 2) = false ∧
    exec (.setsdi 2) State.reset = .next (withWord 0x00000200#32) :=
  ⟨by decide, by decide, by decide, next_of_nextOf (by decide)⟩

theorem witness_CommandsChangeOnlyTheirBits :
    exec (.setdisc 11 13 6) State.reset = .next (withWord 0x80001800#32) ∧ ¬ mayWriteBit (.setdisc 11 13 6) 10 ∧
    ¬ mayWriteBit (.setdisc 11 13 6) 14 ∧ ¬ mayWriteBit (.setlbl 1) 9 ∧ ¬ mayWriteBit (.setssm 1) 29 ∧ ¬ mayWriteBit .nop 1 :=
  ⟨next_of_nextOf (by decide), by simp [mayWriteBit], by simp [mayWriteBit], by simp [mayWriteBit], by simp [mayWriteBit],
    by simp [mayWriteBit]⟩

theorem witness_ParityIsRecomputedOnEveryWrite :
    exec (.setsdi 2) State.reset = .next (withWord 0x00000200#32) ∧ writesW (.setsdi 2) = true ∧
    (withWord 0x00000200#32).status = 0#3 := ⟨next_of_nextOf (by decide), by decide, by decide⟩

theorem witness_RepeatingACommandChangesNothing : exec (.setsdi 2) State.reset = .next (withWord 0x00000200#32) :=
  next_of_nextOf (by decide)

/-- Labels -1 and 256, then 0 and 255. -/
theorem witness_SetlblWritesTheLabel :
    ((-1 : Int) < 0 ∨ (255 : Int) < -1) ∧ ((256 : Int) < 0 ∨ (255 : Int) < 256) ∧ ((0 : Int) ≤ 0 ∧ (0 : Int) ≤ 255) ∧
    exec (.setlbl 0) (withWord 0x800000FF#32) = .next State.reset ∧ ((0 : Int) ≤ 255 ∧ (255 : Int) ≤ 255) ∧
    exec (.setlbl 255) State.reset = .next (withWord 0x800000FF#32) :=
  ⟨by decide, by decide, by decide, next_of_nextOf (by decide), by decide, next_of_nextOf (by decide)⟩

/-- Each clause at an edge: A = -1; the range 10..12; 4 in two bits; 3 in two bits. -/
theorem witness_SetdiscPlacesOrReports :
    (-1 : Int) < 0 ∧ ¬ LegalRange (10#5).toNat (12#5).toNat ∧ LegalRange (11#5).toNat (12#5).toNat ∧
    2 ^ ((12#5).toNat - (11#5).toNat + 1) ≤ (4 : Int).toNat ∧ (3 : Int).toNat < 2 ^ ((12#5).toNat - (11#5).toNat + 1) ∧
    exec (.setdisc 11 12 4) State.reset = .next (reporting State.reset 2#3 4 2) ∧
    exec (.setdisc 11 12 3) State.reset = .next (withWord 0x80000C00#32) :=
  ⟨by decide, by decide, by decide, by decide, by decide, next_of_nextOf (by decide), next_of_nextOf (by decide)⟩

/-- Each clause at an edge: V = -1, R = 0, VD = 0, RD = 0; the range 12..30; 80000 and 79999 in 19 bits. -/
theorem witness_SetbcdPlacesOrReports :
    ¬ (GoodResolution 1 1 ∧ (1 : Nat) ≠ 0 ∧ (0 : Int) ≤ -1) ∧ ¬ (GoodResolution 0 1 ∧ (1 : Nat) ≠ 0 ∧ (0 : Int) ≤ 1) ∧
    ¬ (GoodResolution 1 1 ∧ (0 : Nat) ≠ 0 ∧ (0 : Int) ≤ 1) ∧ ¬ (GoodResolution 1 0 ∧ (1 : Nat) ≠ 0 ∧ (0 : Int) ≤ 1) ∧
    (GoodResolution 1 1 ∧ (1 : Nat) ≠ 0 ∧ (0 : Int) ≤ 0) ∧ ¬ LegalRange (12#5).toNat (30#5).toNat ∧
    LegalRange (11#5).toNat (29#5).toNat ∧
    bcdPack (scale .nearestAway (q 80000 1) (q 1 1)).toNat = 2 ^ ((29#5).toNat - (11#5).toNat + 1) ∧
    bcdPack (scale .nearestAway (q 79999 1) (q 1 1)).toNat < 2 ^ ((29#5).toNat - (11#5).toNat + 1) ∧
    nextOf (exec (.setbcd 11 29 79999 1 1 1) State.reset) = some (withWord 0x1E666400#32) := by decide +kernel

/-- Each clause at an edge: RD = 0, R = 0, VD = 0; the range 12..30; 1 and -2 in one bit; 0 and -1 in one bit. -/
theorem witness_SetbnrPlacesOrReports :
    ¬ (GoodResolution 1 0 ∧ (1 : Nat) ≠ 0) ∧ ¬ (GoodResolution 0 1 ∧ (1 : Nat) ≠ 0) ∧ ¬ (GoodResolution 1 1 ∧ (0 : Nat) ≠ 0) ∧
    (GoodResolution 1 1 ∧ (1 : Nat) ≠ 0) ∧ ¬ LegalRange (12#5).toNat (30#5).toNat ∧ LegalRange (29#5).toNat (29#5).toNat ∧
    (2 ^ ((29#5).toNat - (29#5).toNat) : Int) ≤ scale .nearestAway (q 1 1) (q 1 1) ∧
    scale .nearestAway (q (-2) 1) (q 1 1) < -(2 ^ ((29#5).toNat - (29#5).toNat) : Int) ∧
    -(2 ^ ((29#5).toNat - (29#5).toNat) : Int) ≤ scale .nearestAway (q (-1) 1) (q 1 1) ∧
    scale .nearestAway (q 0 1) (q 1 1) < (2 ^ ((29#5).toNat - (29#5).toNat) : Int) ∧
    nextOf (exec (.setbnr 29 29 1 1 1 1) State.reset) = some (reporting State.reset 2#3 1 1) ∧
    nextOf (exec (.setbnr 29 29 (-1) 1 1 1) State.reset) = some (withWord 0x10000000#32) := by decide +kernel

theorem witness_GetfldReadsTheField :
    ¬ LegalRange (9#5).toNat (10#5).toNat ∧ ¬ LegalRange (13#5).toNat (12#5).toNat ∧ LegalRange (11#5).toNat (29#5).toNat ∧
    LegalRange (29#5).toNat (29#5).toNat ∧ narrow.params.Legal ∧
    nextOf (exec (.getfld 29 29) { narrow with w := 0x10000000#32 }) = some { narrow with w := 0x10000000#32, rint := 1 } := by decide

theorem witness_PargenCompletesTheParity :
    narrow.params.Legal ∧ nextOf (exec (.pargen 0) narrow) = some { narrow with rint := 0x80000000 } := by decide

theorem witness_ValrngReportsLegality :
    (11 ≤ (11#5).toNat ∧ (11#5).toNat ≤ (29#5).toNat ∧ (29#5).toNat ≤ 29) ∧
    (11 ≤ (29#5).toNat ∧ (29#5).toNat ≤ (29#5).toNat ∧ (29#5).toNat ≤ 29) ∧
    ¬ (11 ≤ (10#5).toNat ∧ (10#5).toNat ≤ (29#5).toNat ∧ (29#5).toNat ≤ 29) ∧
    ¬ (11 ≤ (11#5).toNat ∧ (11#5).toNat ≤ (30#5).toNat ∧ (30#5).toNat ≤ 29) ∧
    ¬ (11 ≤ (13#5).toNat ∧ (13#5).toNat ≤ (12#5).toNat ∧ (12#5).toNat ≤ 29) := by decide

/-- A = -1; 8 against 3 bits and 1 against none; 7 against 3 bits and 0 against none. -/
theorem witness_VallenReportsFit :
    (-1 : Int) < 0 ∧ (2 ^ (3#6).toNat : Int) ≤ 8 ∧ (2 ^ (0#6).toNat : Int) ≤ 1 ∧ (7 : Int) < 2 ^ (3#6).toNat ∧
    (0 : Int) < 2 ^ (0#6).toNat := by decide

/-- A = -1; A = 2^32 - 1, the largest a 33-bit RINT holds; A = 2^32. -/
theorem witness_DiscreteCodecPassesTheValue :
    (-1 : Int) < 0 ∧ RintHolds narrow.params.rw (2 ^ 32 - 1) ∧ narrow.params.rw = .bits 33 ∧ ¬ RintHolds narrow.params.rw (2 ^ 32) ∧
    nextOf (exec (.decdisc (2 ^ 32)) narrow) = some (reporting narrow 2#3 (2 ^ 32) 33) :=
  ⟨by decide, by rw [← fitsRint_iff]; decide, rfl, by rw [← fitsRint_false_iff]; decide, by decide⟩

/-- Bad operands; packed 99999999 = 0x99999999, which a 33-bit RINT cannot hold, and 79999999 = 0x79999999, which it can. -/
theorem witness_EncbcdPacksTheScaledValue :
    ¬ (GoodResolution 1 1 ∧ (1 : Nat) ≠ 0 ∧ (0 : Int) ≤ -1) ∧ (GoodResolution 1 1 ∧ (1 : Nat) ≠ 0 ∧ (0 : Int) ≤ 0) ∧
    RintHolds narrow.params.rw (bcdPack (scale narrow.params.roundMode (q 99999999 1) (q 1 1)).toNat) ∧
    narrow.params.rw = .bits 33 ∧
    ¬ RintHolds narrow.params.rw (bcdPack (scale narrow.params.roundMode (q 100000000 1) (q 1 1)).toNat) ∧
    nextOf (exec (.encbcd 100000000 1 1 1) narrow) = some (reporting narrow 2#3 0x100000000 33) :=
  ⟨by decide, by decide, by rw [← fitsRint_iff]; decide +kernel, rfl, by rw [← fitsRint_false_iff]; decide +kernel,
    by decide +kernel⟩

theorem witness_EncbnrScalesTheValue :
    ¬ (GoodResolution (-1) 10 ∧ (1 : Nat) ≠ 0) ∧ (GoodResolution 1 1 ∧ (1 : Nat) ≠ 0) ∧
    RintHolds narrow.params.rw (scale narrow.params.roundMode (q (-2 ^ 32) 1) (q 1 1)) ∧ narrow.params.rw = .bits 33 ∧
    ¬ RintHolds narrow.params.rw (scale narrow.params.roundMode (q (2 ^ 32) 1) (q 1 1)) ∧
    nextOf (exec (.encbnr (2 ^ 32) 1 1 1) narrow) = some (reporting narrow 2#3 (2 ^ 32) 33) :=
  ⟨by decide, by decide, by rw [← fitsRint_iff]; decide +kernel, rfl, by rw [← fitsRint_false_iff]; decide +kernel,
    by decide +kernel⟩

/-- R = 0 and A = -1; A = 0x79999 and A = 0; A = 0x1A under each policy; both signs. -/
theorem witness_DecbcdRecoversTheDigits :
    ¬ GoodResolution 0 1 ∧ (-1 : Int) < 0 ∧ GoodResolution 1 1 ∧ (0x79999 : Int) = bcdPack 79999 ∧ (0 : Int) = bcdPack 0 ∧
    BadNibble (0x1A : Int).toNat ∧ strict.params.bcdMalformed = .error ∧ State.reset.params.bcdMalformed = .weightedSum ∧
    nextOf (exec (.decbcd 0x79999 3 1 1) State.reset) = some { State.reset with rq := -79999 } ∧
    nextOf (exec (.decbcd 0x79999 0 1 1) State.reset) = some { State.reset with rq := 79999 } :=
  ⟨by decide, by decide, by decide, by decide +kernel, by decide, ⟨0, by decide⟩, rfl, rfl, by decide +kernel, by decide +kernel⟩

/-- RD = 0, A = -1 and CNT = 0; A = 2^17 and A = 2^17 - 1, A = 2^16 and A = 2^16 - 1 with CNT = 17; CNT = 1. -/
theorem witness_DecbnrSignExtendsAndScales :
    ¬ GoodResolution 1 0 ∧ GoodResolution 1 1 ∧ (17#6) ≠ 0 ∧ (2 ^ (17#6).toNat : Int) ≤ 2 ^ 17 ∧ (2 ^ 17 - 1 : Int) < 2 ^ (17#6).toNat ∧
    (2 ^ 16 - 1 : Int) < 2 ^ ((17#6).toNat - 1) ∧ (2 ^ ((17#6).toNat - 1) : Int) ≤ 2 ^ 16 ∧
    (0 : Int) < 2 ^ ((1#6).toNat - 1) ∧ (2 ^ ((1#6).toNat - 1) : Int) ≤ 1 ∧ (1 : Int) < 2 ^ (1#6).toNat ∧
    nextOf (exec (.decbnr 1 1 1 1) State.reset) = some { State.reset with rq := -1 } ∧
    nextOf (exec (.decbnr 0xFFFF 17 1 1) State.reset) = some { State.reset with rq := 65535 } := by decide +kernel

/-- R54's own example: (1215, 10) and (243, 2). -/
theorem witness_OnlyTheRationalValueCounts : (10 : Nat) ≠ 0 ∧ (2 : Nat) ≠ 0 ∧ q 1215 10 = q 243 2 ∧ q 1 10 = q 10 100 := by
  decide +kernel

/-- A tie, where the second clause speaks. -/
theorem witness_RoundingFollowsTheMode : |(roundQ .nearestAway (5 / 2) : Rat) - 5 / 2| = 1 / 2 := by decide +kernel

theorem witness_BcdFieldCapacity : (1 ≤ 19 ∧ 19 ≤ 19) ∧ bcdPack 79999 < 2 ^ 19 ∧ ¬ bcdPack 80000 < 2 ^ 19 ∧ bcdPack 1 < 2 ^ 1 ∧
    ¬ bcdPack 2 < 2 ^ 1 := by decide +kernel

/-- w = 1 and n = -1, 0, 1, -2. -/
theorem witness_BnrWrapIsTwosComplement :
    (2 ^ (1 - 1) : Int) - 1 < 1 ∧ (-2 : Int) < -(2 ^ (1 - 1)) ∧ -(2 ^ (1 - 1) : Int) ≤ -1 ∧ (0 : Int) ≤ 2 ^ (1 - 1) - 1 ∧
    (match bnrWrap (-1) 1 with | .ok raw => decide (raw = 1) | .error _ => false) = true := by decide

theorem witness_BnrFieldRange : (2 ^ 19 - 1 : Nat) < 2 ^ 19 ∧ sext 19 (2 ^ 19 - 1) = -1 ∧ sext 19 (2 ^ 18) = -2 ^ 18 ∧ sext 1 1 = -1 := by
  decide

/-- V-S1 steps 2 to 4. -/
theorem witness_DiscreteRoundTrip :
    State.reset.params.Legal ∧ exec (.setdisc 11 13 6) State.reset = .next (withWord 0x80001800#32) ∧
    (withWord 0x80001800#32).status = 0#3 := ⟨by decide, next_of_nextOf (by decide), by decide⟩

/-- V-S4, and the same under TOWARD_ZERO. -/
theorem witness_BcdRoundTrip :
    State.reset.params.Legal ∧ exec (.setbcd 11 29 1215 10 1 10) (withWord 1#32) = .next (withWord 0x80485401#32) ∧
    (withWord 0x80485401#32).status = 0#3 ∧ (0#2) ≠ State.reset.params.bcdNegSsm ∧ State.reset.params.roundMode = .nearestAway ∧
    truncating.params.roundMode = .towardZero ∧
    exec (.setbcd 11 29 1215 10 1 10) { truncating with w := 1#32 } = .next { truncating with w := 0x80485401#32 } :=
  ⟨by decide, next_of_nextOf (by decide +kernel), by decide, by decide, rfl, rfl, next_of_nextOf (by decide +kernel)⟩

/-- V-S3, in both modes. -/
theorem witness_BnrRoundTrip :
    State.reset.params.Legal ∧ exec (.setbnr 13 29 90 1 43945313 1000000000) State.reset = .next (withWord 0x00800000#32) ∧
    (withWord 0x00800000#32).status = 0#3 ∧ (17#6).toNat = (29#5).toNat - (13#5).toNat + 1 ∧
    State.reset.params.roundMode = .nearestAway ∧ truncating.params.roundMode = .towardZero ∧
    exec (.setbnr 13 29 90 1 43945313 1000000000) truncating = .next { truncating with w := 0x007FF000#32 } :=
  ⟨by decide, next_of_nextOf (by decide +kernel), by decide, by decide, rfl, rfl, next_of_nextOf (by decide +kernel)⟩

/-- V-S5: the discrete field 11..12 beside the BNR field 13..29, each side of the other. -/
theorem witness_DisjointFieldsAreIndependent :
    State.reset.params.Legal ∧ fieldOf (.setdisc 11 12 3) = some (11, 12) ∧
    exec (.setdisc 11 12 3) (withWord 0x00800000#32) = .next (withWord 0x00800C00#32) ∧
    LegalRange (13#5).toNat (29#5).toNat ∧ (12#5).toNat < (13#5).toNat ∧
    fieldOf (.setbnr 13 29 90 1 43945313 1000000000) = some (13, 29) ∧
    exec (.setbnr 13 29 90 1 43945313 1000000000) (withWord 0x00800C00#32) = .next (withWord 0x00800C00#32) ∧
    LegalRange (11#5).toNat (12#5).toNat :=
  ⟨by decide, by decide, next_of_nextOf (by decide), by decide, by decide, by decide, next_of_nextOf (by decide +kernel),
    by decide⟩

theorem witness_DisjointSettersCommute :
    writesW (.setlbl 1) = true ∧ writesW (.setdisc 11 13 6) = true ∧ (Instr.setlbl 1) ≠ .new ∧ (Instr.setdisc 11 13 6) ≠ .new ∧
    (∀ k, ¬ (mayWriteBit (.setlbl 1) k ∧ mayWriteBit (.setdisc 11 13 6) k)) ∧
    exec (.setlbl 1) State.reset = .next (withWord 0x00000001#32) ∧
    exec (.setdisc 11 13 6) (withWord 0x00000001#32) = .next (withWord 0x00001801#32) ∧
    (withWord 0x00000001#32).status = 0#3 ∧ (withWord 0x00001801#32).status = 0#3 :=
  ⟨by decide, by decide, by decide, by decide, fun k => by simp [mayWriteBit]; omega, next_of_nextOf (by decide),
    next_of_nextOf (by decide), by decide, by decide⟩

/-- `121.5` and `-0.043945313`. -/
theorem witness_DecimalLiteralIsDigitsOverPowerOfTen :
    readNat 10 ("121".toList ++ "5".toList) = some 1215 ∧ "121".toList ≠ [] ∧ "5".toList ≠ [] ∧
    readRational "121.5".toList = some (1215, 10) ∧ readRational "-0.043945313".toList = some (-43945313, 1000000000) := by decide

end Sys2Proof.Tests
end

/-! SUPPORT. What a step can answer, and that no command and no step touches the parameters or more than the first
sample. -/

namespace Sys2Proof.Machine

/-- The instance's two fields that are no registers, parameters and inputs to come, are never staged (R4, R48). -/
theorem Staged.params_port {i : Instr} {s u : State} (h : Staged i s u) : u.params = s.params ∧ u.port = s.port := by
  cases h <;> exact ⟨rfl, rfl⟩

/-- Completed or aborted, a command answers with the parameters and the port list it was issued with. -/
theorem exec_params_port {i : Instr} {s t : State} (h : exec i s = .next t) :
    t.params = s.params ∧ t.port = s.port := by
  obtain ⟨u, hu, he⟩ | ⟨e, -, he⟩ := exec_next i s
  · cases he.symm.trans h
    exact hu.params_port
  · cases he.symm.trans h
    exact ⟨abort_params e s, abort_port e s⟩

/-- Every step takes the first sample, and then waits, resets, reports an illegal header, or runs the command (R50, R56,
R180). -/
theorem step_cases (s : State) :
    (request s.params s.port.head? = .idle ∧ step s = .next (takeSample s)) ∨
    (request s.params s.port.head? = .reset ∧ step s = .next (resetRegisters (takeSample s))) ∨
    (request s.params s.port.head? = .illegal ∧ step s = .next (abort .illegal (takeSample s))) ∨
    (∃ i, request s.params s.port.head? = .run i ∧ step s = exec i (takeSample s)) := by
  unfold step
  cases request s.params s.port.head? with
  | idle => exact .inl ⟨rfl, rfl⟩
  | reset => exact .inr (.inl ⟨rfl, rfl⟩)
  | illegal => exact .inr (.inr (.inl ⟨rfl, rfl⟩))
  | run i => exact .inr (.inr (.inr ⟨i, rfl, rfl⟩))

/-- Settles O17: whatever the sample asks for acts on the state with that sample taken, and none of the four requests
changes the parameters or the port list of that state. -/
theorem stepKeepsParametersTakesOneSample : Obligations.StepKeepsParametersTakesOneSample := by
  intro s t h
  have taken : t.params = (takeSample s).params ∧ t.port = (takeSample s).port := by
    obtain ⟨-, hs⟩ | ⟨-, hs⟩ | ⟨-, hs⟩ | ⟨i, -, hs⟩ := step_cases s
    · cases hs.symm.trans h
      exact ⟨rfl, rfl⟩
    · cases hs.symm.trans h
      exact ⟨resetRegisters_params _, resetRegisters_port _⟩
    · cases hs.symm.trans h
      exact ⟨abort_params _ _, abort_port _ _⟩
    · exact exec_params_port (hs.symm.trans h)
  simpa using taken

end Sys2Proof.Machine

/-! SUPPORT. Family `10_state.md`: what reset, waiting and the output ports show, the parity bit of every written word,
the invariant every step keeps, and what a command's effect depends on. -/

namespace Sys2Proof.Machine

/-! ## Reset, waiting and output ports -/

/-- Settles O1: the literals of `State.reset`, and the fields cut out of its word. -/
theorem resetRegistersHoldSpecValues : Obligations.ResetRegistersHoldSpecValues :=
  ⟨rfl, rfl, rfl, rfl, rfl, rfl, by decide, by decide, by decide, by decide, by decide⟩

/-- A cut of the word, bit `lsb` first, is the arithmetic reading of its bits (R31, R41). -/
theorem extractLsb'_toNat_eq_bitsOf (w : Word) (lsb msb : Nat) :
    (w.extractLsb' (lsb - 1) (msb - lsb + 1)).toNat = bitsOf w lsb msb := by
  rw [BitVec.extractLsb'_toNat, Nat.shiftRight_eq_div_pow, bitsOf]

/-- Settles O4: each field's port is a cut of W at the bits the table names, each other port a register. -/
theorem outputPortsShowTheState : Obligations.OutputPortsShowTheState := fun s =>
  ⟨rfl, extractLsb'_toNat_eq_bitsOf s.w 1 8, extractLsb'_toNat_eq_bitsOf s.w 9 10,
    extractLsb'_toNat_eq_bitsOf s.w 11 29, extractLsb'_toNat_eq_bitsOf s.w 30 31,
    extractLsb'_toNat_eq_bitsOf s.w 32 32, rfl, rfl, rfl, rfl, rfl⟩

theorem step_of_idle {s : State} (h : request s.params s.port.head? = .idle) : step s = .next (takeSample s) := by
  rw [step, h]

theorem takeSample_of_port_nil {s : State} (h : s.port = []) : takeSample s = s := by
  rw [takeSample, h, List.tail_nil, ← h]

/-- Settles O13: no sample, and a sample with neither RST nor a command, are both a request to wait. -/
theorem waitingBlockKeepsItsRegisters : Obligations.WaitingBlockKeepsItsRegisters := by
  intro s
  constructor
  · intro h
    rw [step_of_idle (by rw [h]; rfl), takeSample_of_port_nil h]
  · intro rest h
    rw [step_of_idle (by rw [h]; rfl), takeSample, h, List.tail_cons]

/-! ## The parity bit of a written word (R25, R76) -/

theorem withParity_parityBit (x : BitVec 31) : (withParity x).extractLsb' 31 1 = par x :=
  BitVec.extractLsb'_append_eq_left

/-- In a word with an odd number of set bits, bit 32 is the odd-parity bit of the others. -/
theorem parityBit_of_odd {w : Word} (h : popcount w % 2 = 1) : w.extractLsb' 31 1 = par (w.extractLsb' 0 31) := by
  have hw : w = withParity (w.extractLsb' 0 31) :=
    eq_of_odd_of_low h (popcount_withParity _) fun k hk => by
      rw [withParity_getLsbD_low _ hk]
      simp [hk]
  calc w.extractLsb' 31 1 = (withParity (w.extractLsb' 0 31)).extractLsb' 31 1 := by rw [← hw]
    _ = par (w.extractLsb' 0 31) := withParity_parityBit _

theorem popcount_resetWord : popcount 0x80000000#32 % 2 = 1 := by decide

/-- Whatever the parity of W was, a command that writes W stages a word with an odd number of set bits. -/
theorem Staged.odd_of_writesW {i : Instr} {s u : State} (h : Staged i s u) (hw : writesW i = true) :
    popcount u.w % 2 = 1 := by
  cases h with
  | nothing h0 => simp [hw] at h0
  | word lsb msb raw => exact popcount_commit _ _
  | rint v _ h0 => simp [hw] at h0
  | rq v _ h0 => simp [hw] at h0
  | all => exact popcount_resetWord

theorem CmdError.code_ne_zero (e : CmdError) : e.code ≠ 0#3 := by cases e <;> simp [CmdError.code]

/-- A command with STATUS 0 has completed: it answers with what it staged. -/
theorem exec_completed {i : Instr} {s t : State} (h : exec i s = .next t) (h0 : t.status = 0#3) :
    ∃ u, Staged i s u ∧ t = complete u := by
  obtain ⟨u, hu, he⟩ | ⟨e, -, he⟩ := exec_next i s
  · cases he.symm.trans h
    exact ⟨u, hu, rfl⟩
  · cases he.symm.trans h
    exact absurd h0 e.code_ne_zero

/-- Settles O23: the completed command has staged an odd word, and oddness determines bit 32. -/
theorem parityIsRecomputedOnEveryWrite : Obligations.ParityIsRecomputedOnEveryWrite := by
  intro i s t h hw h0
  obtain ⟨u, hu, rfl⟩ := exec_completed h h0
  exact parityBit_of_odd (hu.odd_of_writesW hw)

/-! ## The invariant (R26, R27, R29, R30, R4) -/

theorem rintHolds_zero {p : Params} (h : p.Legal) : RintHolds p.rw 0 :=
  (fitsRint_iff p.rw 0).mp (fitsRint_word h.2 (v := 0) (by decide))

/-- A state with cleared outcome registers needs only an odd word, a RINT in range and legal parameters. -/
theorem Inv.of_cleared {s : State} (hs : s.status = 0#3) (hv : s.errval = 0) (hn : s.errw = 0)
    (hw : popcount s.w % 2 = 1) (hr : RintHolds s.params.rw s.rint) (hp : s.params.Legal) : Inv s where
  oddWord := hw
  legalStatus := by rw [hs]; decide
  quietDiagnostics := fun _ => ⟨hv, hn⟩
  rintFits := hr
  legalParams := hp

/-- Settles O15: the reset word has one set bit, and RINT is unbounded at the default parameters. -/
theorem invariantHoldsAtReset : Obligations.InvariantHoldsAtReset :=
  Inv.of_cleared rfl rfl rfl popcount_resetWord trivial (by decide)

theorem Inv.takeSample {s : State} (h : Inv s) : Inv (takeSample s) where
  oddWord := h.oddWord
  legalStatus := h.legalStatus
  quietDiagnostics := h.quietDiagnostics
  rintFits := h.rintFits
  legalParams := h.legalParams

theorem Inv.resetRegisters {s : State} (h : Inv s) : Inv (resetRegisters s) :=
  Inv.of_cleared rfl rfl rfl popcount_resetWord (rintHolds_zero h.legalParams) h.legalParams

theorem CmdError.code_legal (e : CmdError) : e.code ≠ 5#3 ∧ e.code ≠ 6#3 := by
  cases e <;> simp [CmdError.code]

/-- Only FieldOverflowError, code 2, reports a value and a width (R160). -/
theorem CmdError.quiet (e : CmdError) (h : e.code ≠ 2#3) : e.errval = 0 ∧ e.errw = 0 := by
  cases e with
  | fieldOverflow value width => exact absurd rfl h
  | _ => exact ⟨rfl, rfl⟩

/-- An abort keeps the registers the invariant speaks of, and every error's code and diagnostics are as it asks. -/
theorem Inv.abort {s : State} (h : Inv s) (e : CmdError) : Inv (abort e s) where
  oddWord := h.oddWord
  legalStatus := e.code_legal
  quietDiagnostics := e.quiet
  rintFits := h.rintFits
  legalParams := h.legalParams

/-- What a command stages, from a state that meets the invariant, completes to one that does. -/
theorem Inv.complete_staged {i : Instr} {s u : State} (h : Inv s) (hu : Staged i s u) : Inv (complete u) := by
  cases hu with
  | nothing => exact .of_cleared rfl rfl rfl h.oddWord h.rintFits h.legalParams
  | word lsb msb raw => exact .of_cleared rfl rfl rfl (popcount_commit s _) h.rintFits h.legalParams
  | rint v _ _ _ hv => exact .of_cleared rfl rfl rfl h.oddWord hv h.legalParams
  | rq v => exact .of_cleared rfl rfl rfl h.oddWord h.rintFits h.legalParams
  | all => exact .of_cleared rfl rfl rfl popcount_resetWord (rintHolds_zero h.legalParams) h.legalParams

theorem exec_keeps_inv {i : Instr} {s t : State} (h : Inv s) (he : exec i s = .next t) : Inv t := by
  obtain ⟨u, hu, hn⟩ | ⟨e, -, hn⟩ := exec_next i s
  · cases hn.symm.trans he
    exact h.complete_staged hu
  · cases hn.symm.trans he
    exact h.abort e

/-- Settles O16: taking the sample keeps the invariant, and so does each of the four things a step then does. -/
theorem everyStepKeepsInvariant : Obligations.EveryStepKeepsInvariant := by
  intro s t h hstep
  obtain ⟨-, hs⟩ | ⟨-, hs⟩ | ⟨-, hs⟩ | ⟨i, -, hs⟩ := step_cases s
  · cases hs.symm.trans hstep
    exact h.takeSample
  · cases hs.symm.trans hstep
    exact h.takeSample.resetRegisters
  · cases hs.symm.trans hstep
    exact h.takeSample.abort .illegal
  · exact exec_keeps_inv h.takeSample (hs.symm.trans hstep)

/-! ## What a command's effect depends on (R32, R34) -/

/-- A setter reads W, whose other bits it keeps, and writes no result register. -/
theorem isSetter_usage {i : Instr} (h : isSetter i = true) :
    readsW i = true ∧ writesRint i = false ∧ writesRq i = false := by
  cases i with
  | setlbl | setsdi | setssm | setdisc | setbcd | setbnr => exact ⟨rfl, rfl, rfl⟩
  | _ => cases h

/-- Settles O18: each way a command can act alike on two states gives both the same outcome and the same writes. -/
theorem commandDependsOnlyOnWordAndOperands : Obligations.CommandDependsOnlyOnWordAndOperands := by
  intro i s s' t t' hp hw h h'
  cases exec_alike i hp (fun hr _ => hw hr) with
  | raises e he he' =>
    cases he.symm.trans h
    cases he'.symm.trans h'
    exact ⟨rfl, rfl, rfl, fun h0 => absurd h0 e.code_ne_zero⟩
  | nothing h1 h2 h3 he he' =>
    cases he.symm.trans h
    cases he'.symm.trans h'
    simp [h1, h2, h3]
  | rint v h1 h2 he he' =>
    cases he.symm.trans h
    cases he'.symm.trans h'
    simp [h1, h2]
  | rq v h1 h2 he he' =>
    cases he.symm.trans h
    cases he'.symm.trans h'
    simp [h1, h2]
  | word lsb msb raw hset _ _ _ he he' =>
    obtain ⟨hr, h1, h2⟩ := isSetter_usage hset
    cases he.symm.trans h
    cases he'.symm.trans h'
    simp [h1, h2, hw hr]
  | all hi =>
    subst hi
    cases h
    cases h'
    exact ⟨rfl, rfl, rfl, fun _ => ⟨fun _ => rfl, fun _ => rfl, fun _ => rfl⟩⟩

end Sys2Proof.Machine

/-! SUPPORT. Family `20_memory.md`: which bits of the word a command leaves alone, and that a command issued twice acts
once. -/

namespace Sys2Proof.Machine

/-! ## The bits of W a command leaves alone (R44) -/

/-- What a command stages agrees with the word before it on every bit from 1 to 31 that the opcode does not name. -/
theorem Staged.getLsbD_of_not_mayWriteBit {i : Instr} {s u : State} (h : Staged i s u) {k : Nat} (h1 : 1 ≤ k)
    (h31 : k ≤ 31) (hk : ¬ mayWriteBit i k) : u.w.getLsbD (k - 1) = s.w.getLsbD (k - 1) := by
  cases h with
  | nothing | rint | rq => rfl
  | word lsb msb raw hset hf =>
    obtain ⟨hrange, hraw, hnamed⟩ := setterField_ok hset hf
    have unnamed : ¬ (lsb ≤ k ∧ k ≤ msb) := (hnamed k).not.mp hk
    have outside : k < lsb ∨ msb < k := by omega
    exact agreeOutside_commit_merge hrange s hraw k h1 h31 outside
  | all hi =>
    subst hi
    exact absurd trivial hk

/-- Settles O22: an abort keeps the whole word, and a completed command answers with the word it staged. -/
theorem commandsChangeOnlyTheirBits : Obligations.CommandsChangeOnlyTheirBits := by
  intro i s t k h h1 h31 hk
  obtain ⟨u, hu, he⟩ | ⟨e, -, he⟩ := exec_next i s
  · cases he.symm.trans h
    exact hu.getLsbD_of_not_mayWriteBit h1 h31 hk
  · cases he.symm.trans h
    rfl

/-! ## A command issued twice (R46) -/

theorem Staged.w_of_not_writesW {i : Instr} {s u : State} (h : Staged i s u) (hw : writesW i = false) : u.w = s.w := by
  cases h with
  | nothing | rint | rq => rfl
  | word lsb msb raw hset => simp [writesW_of_isSetter hset] at hw
  | all hi =>
    subst hi
    cases hw

theorem exec_w_of_not_writesW {i : Instr} {s t : State} (h : exec i s = .next t) (hw : writesW i = false) :
    t.w = s.w := by
  obtain ⟨u, hu, he⟩ | ⟨e, -, he⟩ := exec_next i s
  · cases he.symm.trans h
    exact hu.w_of_not_writesW hw
  · cases he.symm.trans h
    rfl

/-- The one command that reads W and is no setter is GETFLD, which writes RINT only. -/
theorem not_writesW_of_readsW {i : Instr} (hr : readsW i = true) (hs : isSetter i = false) : writesW i = false := by
  cases i with
  | getfld lsb msb => rfl
  | setlbl | setsdi | setssm | setdisc | setbcd | setbnr => cases hs
  | _ => cases hr

/-- A state that a setter answered with is kept by the same placement, outcome registers included. -/
theorem complete_commit_merge_twice {lsb msb raw : Nat} (h : WordRange lsb msb) (s : State)
    (hraw : raw < 2 ^ width lsb msb) {t : State} (ht : t = complete (commit s (merge s.w lsb msb raw))) :
    complete (commit t (merge t.w lsb msb raw)) = t := by
  subst ht
  apply State.ext
  case w => exact commit_merge_twice h _ s s.w hraw
  all_goals simp

/-- Settles O24: the command acts alike before and after its first issue, since a command that reads W without setting a
field of it leaves W as it was; and raising the same error, or writing the same values, a second time changes nothing. -/
theorem repeatingACommandChangesNothing : Obligations.RepeatingACommandChangesNothing := by
  intro i s t h
  obtain ⟨hparams, -⟩ := exec_params_port h
  have sameWord (hr : readsW i = true) (hs : isSetter i = false) : s.w = t.w :=
    (exec_w_of_not_writesW h (not_writesW_of_readsW hr hs)).symm
  cases exec_alike i hparams.symm sameWord with
  | raises e he he' | nothing _ _ _ he he' | rint v _ _ he he' | rq v _ _ he he' =>
    cases he.symm.trans h
    exact he'
  | word lsb msb raw _ hrange hraw _ he he' =>
    cases he.symm.trans h
    rw [he', complete_commit_merge_twice hrange s hraw rfl]
  | all hi =>
    subst hi
    cases h
    rfl

end Sys2Proof.Machine

/-! SUPPORT. Family `30_encoding.md`: the decoder and the encoder against each other, what a step does with the command it
decodes, which registers an opcode writes, the operands a command sees only as rationals, and the assembler's literals. -/

namespace Sys2Proof

/-! ## The encoder, read by the decoder (R51, R53, R58) -/

section
variable (p : Params) (n : Int) (d : Nat) (c : Command)

@[simp] theorem bareCommand_header (op lsb msb : BitVec 5) (ss : BitVec 2) (cnt : BitVec 6) :
    (bareCommand op lsb msb ss cnt).header = .assemble op lsb msb ss cnt := rfl

@[simp] theorem withA_header : (c.withA p n).header = c.header := rfl
@[simp] theorem withA_a : (c.withA p n).a = slotBits p n := rfl

@[simp] theorem withV_header : (c.withV p n d).header = c.header := rfl
@[simp] theorem withV_vn : (c.withV p n d).vn = slotBits p n := rfl
@[simp] theorem withV_vd : (c.withV p n d).vd = d := rfl

@[simp] theorem withR_header : (c.withR p n d).header = c.header := rfl
@[simp] theorem withR_a : (c.withR p n d).a = c.a := rfl
@[simp] theorem withR_vn : (c.withR p n d).vn = c.vn := rfl
@[simp] theorem withR_vd : (c.withR p n d).vd = c.vd := rfl
@[simp] theorem withR_rn : (c.withR p n d).rn = slotBits p n := rfl
@[simp] theorem withR_rd : (c.withR p n d).rd = d := rfl

end

/-- Whatever the instruction, the encoder's header is put together from its own opcode, with RSV zero (R51). -/
theorem encode_header (p : Params) (i : Instr) :
    ∃ lsb msb ss cnt, (encode p i).header = .assemble i.opcode lsb msb ss cnt := by
  cases i <;> exact ⟨_, _, _, _, rfl⟩

/-- The decoder reads what the encoder writes by the row of the instruction's own opcode. -/
theorem decode_encode_eq_decodeOp (p : Params) (i : Instr) :
    decode p (encode p i) = decodeOp p (encode p i) i.opcode.toNat := by
  obtain ⟨lsb, msb, ss, cnt, h⟩ := encode_header p i
  rw [decode_legal (by rw [h, rsv_assemble]), h, op_assemble]

theorem fitsPair_iff {p : Params} {n : Int} {d : Nat} :
    fitsPair p n d = true ↔ fitsSigned p.aw n = true ∧ fitsUnsigned p.aw d = true := Bool.and_eq_true_iff

/-- A pair that fits its two slots is read back from them (R9, R53). -/
theorem slots_of_fitsPair {p : Params} (hp : p.Legal) {n : Int} {d : Nat} (h : fitsPair p n d = true) :
    signedSlot p (slotBits p n) = n ∧ unsignedSlot p d = d := by
  obtain ⟨hn, hd⟩ := fitsPair_iff.mp h
  exact ⟨signedSlot_slotBits hp hn, unsignedSlot_fits hd⟩

/-- Settles O7: the row of the instruction's opcode reads each operand back from the field or slot the encoder put it
in. -/
theorem decodeEncodeAgree : Obligations.DecodeEncodeAgree := by
  intro p i hp h
  rw [decode_encode_eq_decodeOp]
  cases i with
  | nop | new => rfl
  | setsdi | setssm | getfld | valrng => simp [Instr.opcode, decodeOp, encode]
  | setlbl | encdisc | decdisc | pargen | setdisc | vallen =>
    simp [Instr.opcode, decodeOp, encode, signedSlot_slotBits hp h]
  | setbcd | setbnr | encbcd | encbnr =>
    obtain ⟨hv, hr⟩ := Bool.and_eq_true_iff.mp h
    simp [Instr.opcode, decodeOp, encode, slots_of_fitsPair hp hv, slots_of_fitsPair hp hr]
  | decbcd | decbnr =>
    obtain ⟨ha, hr⟩ := Bool.and_eq_true_iff.mp h
    simp [Instr.opcode, decodeOp, encode, signedSlot_slotBits hp ha, slots_of_fitsPair hp hr]

/-! ## What the decoder reads -/

/-- Settles O6: below 2^AW the port bits are the number itself, and `sext` compares it with half the range. -/
theorem slotsReadTheirPortBits : Obligations.SlotsReadTheirPortBits := by
  intro p port hp hport
  have haw : 1 ≤ p.aw := le_trans (by decide) hp.1
  exact ⟨by rw [signedSlot, Nat.mod_eq_of_lt hport, Machine.sext_cases haw hport], Nat.mod_eq_of_lt hport⟩

theorem fitsPair_slots {p : Params} (hp : p.Legal) (n d : Nat) :
    fitsPair p (signedSlot p n) (unsignedSlot p d) = true :=
  fitsPair_iff.mpr ⟨fitsSigned_signedSlot hp n, fitsUnsigned_unsignedSlot p d⟩

/-- Every operand of a decoded instruction is what its slot read, which fits it (R53). -/
theorem wellFormed_of_decodeOp {p : Params} (hp : p.Legal) {c : Command} {n : Nat} {i : Instr}
    (h : decodeOp p c n = some i) : i.wellFormed p = true := by
  unfold decodeOp at h
  split at h <;> cases h <;> simp [Instr.wellFormed, fitsPair_slots hp, fitsSigned_signedSlot hp]

theorem decode_some {p : Params} {c : Command} {i : Instr} (h : decode p c = some i) :
    c.header.rsv = 0#9 ∧ decodeOp p c c.header.op.toNat = some i := by
  by_cases hrsv : c.header.rsv = 0#9
  · exact ⟨hrsv, decode_legal hrsv ▸ h⟩
  · cases (decode_reserved hrsv).symm.trans h

/-- Settles O8: a decoded instruction is well formed, and O7 decodes its encoding. -/
theorem decoderOutputReencodes : Obligations.DecoderOutputReencodes := by
  intro p c i hp h
  have hwf : i.wellFormed p = true := wellFormed_of_decodeOp hp (decode_some h).2
  exact ⟨hwf, decodeEncodeAgree p i hp hwf⟩

/-- The opcodes from 0x12 up are reserved (R56). -/
theorem decodeOp_reserved (p : Params) (c : Command) {n : Nat} (h : ¬ n < 0x12) : decodeOp p c n = none := by
  simpa [h] using decodeOp_isSome p c n

/-- Below 0x12, and only there, `decodeOp` answers an instruction, and of the opcode it was asked for (R58). -/
theorem decodeOp_map_opcode (p : Params) (c : Command) (n : Nat) :
    (decodeOp p c n).map (fun i => i.opcode.toNat) = if n < 0x12 then some n else none := by
  by_cases hn : n < 0x12
  · obtain ⟨i, hi⟩ := Option.isSome_iff_exists.mp ((decodeOp_isSome p c n).trans (decide_eq_true hn))
    rw [hi, if_pos hn, Option.map_some, opcode_of_decodeOp hi]
  · rw [decodeOp_reserved p c hn, if_neg hn, Option.map_none]

/-- Settles O9: the masked header is OP where RSV is zero, and lies above every opcode where it is not. -/
theorem headerSelectsOneOpcode : Obligations.HeaderSelectsOneOpcode := by
  intro p c
  have hmask := mask_toNat c.header
  by_cases hrsv : c.header.rsv = 0#9
  · have hop : (c.header &&& 0xFF80001F#32).toNat = c.header.op.toNat := by simpa [hrsv] using hmask
    rw [decode_legal hrsv, decodeOp_map_opcode, hop]
  · have hpos : 0 < c.header.rsv.toNat := Nat.pos_of_ne_zero fun h0 => hrsv (BitVec.eq_of_toNat_eq h0)
    have habove : ¬ (c.header &&& 0xFF80001F#32).toNat < 0x12 := by omega
    rw [decode_reserved hrsv, if_neg habove, Option.map_none]

/-- Settles O5: the eight words are evaluated. -/
theorem specWordsDecode : Obligations.SpecWordsDecode := by
  unfold Obligations.SpecWordsDecode
  decide

/-- A header with RSV not zero or a reserved opcode does not decode (R56). -/
theorem decode_illegal (p : Params) {c : Command} (h : c.header.rsv ≠ 0#9 ∨ 0x12 ≤ c.header.op.toNat) :
    decode p c = none := by
  by_cases hrsv : c.header.rsv = 0#9
  · rw [decode_legal hrsv, decodeOp_reserved p c (not_lt.mpr (h.resolve_left (not_not.mpr hrsv)))]
  · exact decode_reserved hrsv

end Sys2Proof

namespace Sys2Proof.Machine

/-! ## The step of a presented command (R50, R55, R56) -/

theorem request_of_command (p : Params) {c : Command} {port rest : List PortSample}
    (h : port = ⟨false, some c⟩ :: rest) : request p port.head? = requestOfCommand p c := by
  rw [h]
  rfl

theorem takeSample_of_port_cons {s : State} {smp : PortSample} {rest : List PortSample} (h : s.port = smp :: rest) :
    takeSample s = { s with port := rest } := by
  rw [takeSample, h, List.tail_cons]

theorem step_of_run {s : State} {i : Instr} (h : request s.params s.port.head? = .run i) :
    step s = exec i (takeSample s) := by
  rw [step, h]

theorem step_of_illegal {s : State} (h : request s.params s.port.head? = .illegal) :
    step s = .next (reporting (takeSample s) 7#3 0 0) := by
  rw [step, h]
  rfl

/-- Settles O11: the sample's request is to run what its command decodes to. -/
theorem stepRunsTheDecodedCommand : Obligations.StepRunsTheDecodedCommand := by
  intro s c i rest hport hdec
  have hrun : request s.params s.port.head? = .run i := by
    rw [request_of_command _ hport, requestOfCommand, hdec]
  rw [step_of_run hrun, takeSample_of_port_cons hport]

/-- Settles O12: the sample's command decodes to nothing, so its request is to report it illegal. -/
theorem illegalHeaderReportsIllegal : Obligations.IllegalHeaderReportsIllegal := by
  intro s c rest hport hill
  have hillegal : request s.params s.port.head? = .illegal := by
    rw [request_of_command _ hport, requestOfCommand, decode_illegal _ hill]
  rw [step_of_illegal hillegal, takeSample_of_port_cons hport]

/-- Each row of the decoder reads only the columns that the operand table marks as used (R55, R58). -/
theorem AgreeOnUsed.decodeOp_eq {c c' : Command} (h : AgreeOnUsed c c') (p : Params) :
    decodeOp p c c.header.op.toNat = decodeOp p c' c.header.op.toNat := by
  obtain ⟨-, -, hlsb, hmsb, hss, hcnt, ha, hv, hr⟩ := h
  generalize c.header.op.toNat = n at *
  by_cases hn : n < 0x12
  · interval_cases n <;> simp_all [usage, decodeOp]
  · rw [decodeOp_reserved p c hn, decodeOp_reserved p c' hn]

theorem AgreeOnUsed.decode_eq {c c' : Command} (h : AgreeOnUsed c c') (p : Params) : decode p c = decode p c' := by
  rw [decode, decode, h.decodeOp_eq p, h.rsv, h.op]

/-- A step depends on the next sample through its request alone. -/
theorem step_congr {s s' : State} (hreq : request s.params s.port.head? = request s'.params s'.port.head?)
    (htake : takeSample s = takeSample s') : step s = step s' := by
  rw [step, step, hreq, htake]

theorem request_present (c : Command) (s : State) :
    request (present c s).params (present c s).port.head? = requestOfCommand s.params c :=
  request_of_command _ (present_port c s)

theorem takeSample_present (c : Command) (s : State) : takeSample (present c s) = s := rfl

/-- Settles O10: the two commands decode alike, and a step sees nothing of a command but what it decodes to. -/
theorem unusedFieldsAreIgnored : Obligations.UnusedFieldsAreIgnored := by
  intro c c' s h
  apply step_congr
  · rw [request_present, request_present, requestOfCommand, requestOfCommand, h.decode_eq]
  · rw [takeSample_present, takeSample_present]

/-! ## The registers an opcode writes (R58) -/

theorem Staged.rint_of_not_writesRint {i : Instr} {s u : State} (h : Staged i s u) (hw : writesRint i = false) :
    u.rint = s.rint := by
  cases h with
  | nothing | word | rq => rfl
  | rint v h0 => simp [hw] at h0
  | all hi =>
    subst hi
    cases hw

theorem Staged.rq_of_not_writesRq {i : Instr} {s u : State} (h : Staged i s u) (hw : writesRq i = false) :
    u.rq = s.rq := by
  cases h with
  | nothing | word | rint => rfl
  | rq v h0 => simp [hw] at h0
  | all hi =>
    subst hi
    cases hw

/-- Settles O21: an abort keeps W, RINT and RQ, and a completed command answers with what it staged. -/
theorem onlyTheNamedOpcodesWrite : Obligations.OnlyTheNamedOpcodesWrite := by
  intro i s t h
  refine ⟨exec_w_of_not_writesW h, ?_⟩
  obtain ⟨u, hu, he⟩ | ⟨e, -, he⟩ := exec_next i s
  · cases he.symm.trans h
    exact ⟨hu.rint_of_not_writesRint, hu.rq_of_not_writesRq, hu.params_port⟩
  · cases he.symm.trans h
    exact ⟨fun _ => rfl, fun _ => rfl, rfl, rfl⟩

/-! ## Operands seen only as rationals (R54) -/

theorem validResolution_congr {rn rn' : Int} {rd rd' : Nat} (hd : rd ≠ 0) (hd' : rd' ≠ 0) (h : q rn rd = q rn' rd') :
    validResolution rn rd = validResolution rn' rd' := by
  rw [validResolution, validResolution, if_neg hd, if_neg hd', h]

theorem validValue_congr {vn vn' : Int} {vd vd' : Nat} (hd : vd ≠ 0) (hd' : vd' ≠ 0) (h : q vn vd = q vn' vd') :
    validValue vn vd = validValue vn' vd' := by
  rw [validValue_good vn hd, validValue_good vn' hd', h]

/-- Settles O40: V and R enter every codec through `validValue` and `validResolution`. -/
theorem onlyTheRationalValueCounts : Obligations.OnlyTheRationalValueCounts := by
  intro vn vn' rn rn' vd vd' rd rd' hvd hvd' hrd hrd' hv hr lsb msb a ss cnt s
  have value : validValue vn vd = validValue vn' vd' := validValue_congr hvd hvd' hv
  have resolution : validResolution rn rd = validResolution rn' rd' := validResolution_congr hrd hrd' hr
  have bcd : bcdEncode s.params vn vd rn rd = bcdEncode s.params vn' vd' rn' rd' := by
    rw [bcdEncode, bcdEncode, value, resolution]
  have bnr : bnrEncode s.params vn vd rn rd = bnrEncode s.params vn' vd' rn' rd' := by
    rw [bnrEncode, bnrEncode, value, resolution]
  simp only [exec]
  refine ⟨?_, ?_, ?_, ?_, ?_, ?_⟩
  · rw [execSetbcd, execSetbcd, bcd]
  · rw [execSetbnr, execSetbnr, bnr]
  · rw [execEncbcd, execEncbcd, bcd]
  · rw [execEncbnr, execEncbnr, bnr]
  · rw [execDecbcd, execDecbcd, bcdDecode, bcdDecode, resolution]
  · rw [execDecbnr, execDecbnr, bnrDecode, bnrDecode, resolution]

/-! ## The assembler (R60, R61) -/

/-- Settles O51: the eight lines are assembled. -/
theorem specLinesAssemble : Obligations.SpecLinesAssemble := by
  unfold Obligations.SpecLinesAssemble
  decide

/-- In a run that reads as digits, every character is one. -/
theorem digitValue_of_readDigits {base : Nat} {ch : Char} :
    ∀ {cs : List Char} {acc n : Nat}, readDigits base acc cs = some n → ch ∈ cs → digitValue ch ≠ none := by
  intro cs
  induction cs with
  | nil => intro acc n _ hmem; cases hmem
  | cons c cs ih =>
    intro acc n h hmem
    rw [readDigits] at h
    split at h
    · rename_i d hd
      split at h
      · rcases List.mem_cons.mp hmem with rfl | hmem
        · simp [hd]
        · exact ih h hmem
      · cases h
    · cases h

/-- The signs and separators of a literal are no digits, so no run of digits contains one. -/
theorem not_mem_of_readNat {base : Nat} {cs : List Char} {n : Nat} (h : readNat base cs = some n) {ch : Char}
    (hch : digitValue ch = none) : ch ∉ cs := by
  unfold readNat at h
  split at h
  · cases h
  · exact fun hmem => digitValue_of_readDigits h hmem hch

theorem cutAt_of_not_mem {sep : Char} : ∀ {cs : List Char}, sep ∉ cs → cutAt sep cs = (cs, none)
  | [], _ => rfl
  | ch :: cs, h => by
    obtain ⟨hne, hrest⟩ := not_or.mp (mt List.mem_cons.mpr h)
    rw [cutAt, if_neg (Ne.symm hne), cutAt_of_not_mem hrest]

theorem cutAt_append_cons {sep : Char} {after : List Char} :
    ∀ {before : List Char}, sep ∉ before → cutAt sep (before ++ sep :: after) = (before, some after)
  | [], _ => by rw [List.nil_append, cutAt, if_pos rfl]
  | ch :: before, h => by
    obtain ⟨hne, hrest⟩ := not_or.mp (mt List.mem_cons.mpr h)
    rw [List.cons_append, cutAt, if_neg (Ne.symm hne), cutAt_append_cons hrest]

theorem readSigned_of_not_neg {read : List Char → Option Nat} {cs : List Char} (h : '-' ∉ cs) :
    readSigned read cs = (read cs).map fun n => (n : Int) := by
  unfold readSigned
  split
  · exact absurd (List.mem_cons_self ..) h
  · rfl

/-- A literal with one point and no slash is its two runs joined, over the power of ten of the second (R60). -/
theorem readRational_point {whole frac : List Char} (hslash : '/' ∉ whole ++ '.' :: frac) (hpoint : '.' ∉ whole)
    (hw : whole ≠ []) (hm : whole ≠ ['-']) (hf : frac ≠ []) :
    readRational (whole ++ '.' :: frac) =
      (readSigned (readNat 10) (whole ++ frac)).map fun n => (n, 10 ^ frac.length) := by
  simp [readRational, cutAt_of_not_mem hslash, readDecimal, cutAt_append_cons hpoint, hw, hm, hf]

/-- Settles O52: the joined runs hold digits only, so the point is the first one, and a sign is only the one put in
front. -/
theorem decimalLiteralIsDigitsOverPowerOfTen : Obligations.DecimalLiteralIsDigitsOverPowerOfTen := by
  intro whole frac n hw hf hread
  have hslash : '/' ∉ whole ++ frac := not_mem_of_readNat hread (by decide)
  have hpoint : '.' ∉ whole ++ frac := not_mem_of_readNat hread (by decide)
  have hminus : '-' ∉ whole ++ frac := not_mem_of_readNat hread (by decide)
  rw [List.mem_append, not_or] at hslash hpoint
  constructor
  · have hm : whole ≠ ['-'] := by rintro rfl; simp at hminus
    rw [readRational_point (by simp [hslash]) hpoint.1 hw hm hf, readSigned_of_not_neg hminus, hread]
    rfl
  · rw [← List.cons_append, readRational_point (by simp [hslash]) (by simp [hpoint]) (by simp) (by simp [hw]) hf,
      List.cons_append, readSigned, hread]
    rfl

end Sys2Proof.Machine

/-! SUPPORT. Family `40_primitives.md`: what VALRNG and VALLEN report, and the rounding modes. -/

namespace Sys2Proof.Machine

/-! ## The utility commands (R79, R80) -/

/-- Settles O33: VALRNG ends as `validateRange` does, and stages no write. -/
theorem valrngReportsLegality : Obligations.ValrngReportsLegality := by
  intro lsb msb s
  constructor
  · intro h
    rw [exec, execValrng, validateRange_legal h]
    rfl
  · intro h
    rw [exec, execValrng, validateRange_illegal h]
    rfl

/-- A raw value that is not negative leaves VALLEN the length check only. -/
theorem exec_vallen_natCast (raw : Nat) (cnt : BitVec 6) (s : State) :
    exec (.vallen raw cnt) s = settle s ((validateBitLength raw cnt.toNat).map fun _ => s) := by
  rw [exec, execVallen, validUnsigned_nonneg (Int.natCast_nonneg raw), Int.toNat_natCast]
  rfl

/-- Settles O34: the sign check stops a negative A, and the length check decides on the others. -/
theorem vallenReportsFit : Obligations.VallenReportsFit := by
  intro a cnt s
  refine ⟨fun hneg => ?_, fun hnonneg hlarge => ?_, fun hnonneg hsmall => ?_⟩
  · rw [exec, execVallen, validUnsigned_neg hneg]
    rfl
  · lift a to Nat using hnonneg
    rw [exec_vallen_natCast, validateBitLength_overflow (by exact_mod_cast hlarge)]
    rfl
  · lift a to Nat using hnonneg
    rw [exec_vallen_natCast, validateBitLength_fits (by exact_mod_cast hsmall)]
    rfl

/-! ## Rounding, from the magnitude (R72) -/

theorem abs_roundQ (m : RoundMode) (x : Rat) : |(roundQ m x : Rat)| = roundQ m |x| := by
  have hnonneg : (0 : Rat) ≤ roundQ m |x| := by exact_mod_cast roundQ_nonneg m (abs_nonneg x)
  rcases abs_choice x with hx | hx
  · rw [hx] at hnonneg ⊢
    exact abs_of_nonneg hnonneg
  · rw [hx, roundQ_neg, Int.cast_neg] at hnonneg ⊢
    exact abs_of_nonpos (neg_nonneg.mp hnonneg)

/-- The distance from `x` to its rounding is the one of the magnitudes. -/
theorem abs_roundQ_sub (m : RoundMode) (x : Rat) : |(roundQ m x : Rat) - x| = |(roundQ m |x| - |x| : Rat)| := by
  rcases abs_choice x with hx | hx
  · rw [hx]
  · rw [hx, roundQ_neg, Int.cast_neg, neg_sub_neg, abs_sub_comm]

theorem mul_roundQ (m : RoundMode) (x : Rat) : x * (roundQ m x : Rat) = |x| * (roundQ m |x| : Rat) := by
  rcases abs_choice x with hx | hx
  · rw [hx]
  · rw [hx, roundQ_neg, Int.cast_neg, neg_mul_neg]

/-- The half-open interval that NEAREST_AWAY sends to one integer: a tie goes up. -/
theorem roundQ_nearest_bounds {y : Rat} (h : 0 ≤ y) :
    -(1 / 2) < (roundQ .nearestAway y : Rat) - y ∧ (roundQ .nearestAway y : Rat) - y ≤ 1 / 2 := by
  rw [roundQ_nearest_of_nonneg h]
  have hle := Int.floor_le (y + 1 / 2)
  have hlt := Int.lt_floor_add_one (y + 1 / 2)
  constructor <;> linarith

theorem roundQ_toward_bounds {y : Rat} (h : 0 ≤ y) :
    (roundQ .towardZero y : Rat) ≤ y ∧ y < (roundQ .towardZero y : Rat) + 1 := by
  rw [roundQ_toward_of_nonneg h]
  exact ⟨Int.floor_le y, Int.lt_floor_add_one y⟩

/-- Settles O41: rounding acts on the magnitude, where each mode is a floor. -/
theorem roundingFollowsTheMode : Obligations.RoundingFollowsTheMode := by
  intro x
  obtain ⟨haway, hnear⟩ := roundQ_nearest_bounds (abs_nonneg x)
  obtain ⟨hle, hlt⟩ := roundQ_toward_bounds (abs_nonneg x)
  have hnonneg : (0 : Rat) ≤ roundQ .towardZero |x| := by exact_mod_cast roundQ_nonneg _ (abs_nonneg x)
  rw [abs_sub_comm x, abs_roundQ_sub .nearestAway x, abs_roundQ_sub .towardZero x, abs_roundQ .nearestAway x,
    abs_roundQ .towardZero x, mul_roundQ .towardZero x]
  refine ⟨abs_le.mpr ⟨haway.le, hnear⟩, fun htie => ?_, abs_lt.mpr ⟨by linarith, by linarith⟩, hle,
    mul_nonneg (abs_nonneg x) hnonneg⟩
  rcases (abs_eq (by norm_num)).mp htie with hup | hdown
  · linarith
  · exact absurd hdown haway.ne'

end Sys2Proof.Machine

/-! SUPPORT. Family `41_discrete.md`: what ENCDISC and DECDISC report, and that a placed discrete value is read back. -/

namespace Sys2Proof.Machine

/-! ## A command that ends in a write of RINT (R81, R160, R161) -/

theorem settle_putRint_holds {s : State} {v : Int} (h : RintHolds s.params.rw v) :
    settle s (putRint s v) = .next (reporting { s with rint := v } 0#3 0 0) := by
  rw [putRint_fits ((fitsRint_iff _ _).mpr h)]
  rfl

theorem settle_putRint_overflow {s : State} {v : Int} {n : Nat} (hrw : s.params.rw = .bits n)
    (h : ¬ RintHolds s.params.rw v) : settle s (putRint s v) = .next (reporting s 2#3 v n) := by
  rw [putRint_overflow ((fitsRint_false_iff _ _).mpr h), hrw]
  rfl

/-! ## The discrete codec (R90 to R93) -/

/-- Encoding and decoding are the same command: the sign check, then the write of RINT. -/
theorem exec_discreteCodec {i : Int → Instr} (hi : i = .encdisc ∨ i = .decdisc) (a : Int) (s : State) :
    exec (i a) s = settle s (validUnsigned a >>= fun raw => putRint s raw) := by
  obtain rfl | rfl := hi <;> rfl

/-- A value that is not negative leaves the codec the write of RINT only. -/
theorem exec_discreteCodec_nonneg {i : Int → Instr} (hi : i = .encdisc ∨ i = .decdisc) {a : Int} (ha : 0 ≤ a)
    (s : State) : exec (i a) s = settle s (putRint s a) := by
  rw [exec_discreteCodec hi, validUnsigned_nonneg ha, ok_bind, Int.toNat_of_nonneg ha]

/-- Settles O35: the sign check stops a negative A, and the write of RINT decides on the others. -/
theorem discreteCodecPassesTheValue : Obligations.DiscreteCodecPassesTheValue := by
  intro i hi a s
  refine ⟨fun hneg => ?_, fun hnonneg hholds => ?_, fun n hnonneg hrw hlarge => ?_⟩
  · rw [exec_discreteCodec hi, validUnsigned_neg hneg]
    rfl
  · rw [exec_discreteCodec_nonneg hi hnonneg, settle_putRint_holds hholds]
  · rw [exec_discreteCodec_nonneg hi hnonneg, settle_putRint_overflow hrw hlarge]

/-! ## A discrete value placed and read back (R137, R140) -/

/-- A command with STATUS 0 has not raised: it answers with the state its pseudocode staged. -/
theorem settle_completed {s t : State} {r : Except CmdError State} (h : settle s r = .next t) (h0 : t.status = 0#3) :
    ∃ u, r = .ok u ∧ t = complete u := by
  obtain hok | ⟨e, -, rfl⟩ := settle_next h
  · exact hok
  · exact absurd h0 e.code_ne_zero

theorem validUnsigned_ok {a : Int} {raw : Nat} (h : validUnsigned a = .ok raw) : a = raw := by
  obtain hneg | hnonneg := lt_or_ge a 0
  · rw [validUnsigned_neg hneg] at h
    cases h
  · rw [validUnsigned_nonneg hnonneg] at h
    cases h
    exact (Int.toNat_of_nonneg hnonneg).symm

theorem place_ok {s u : State} {lsb msb raw : Nat} (h : place s lsb msb raw = .ok u) :
    raw < 2 ^ width lsb msb ∧ u = commit s (merge s.w lsb msb raw) := by
  obtain ⟨_, hlen, hu⟩ := bind_ok h
  cases hu
  exact ⟨validateBitLength_ok hlen, rfl⟩

/-- What a SETDISC that completed says of its operands, and the state it answers with. -/
theorem setdisc_completed {lsb msb : BitVec 5} {a : Int} {s t : State} (h : exec (.setdisc lsb msb a) s = .next t)
    (h0 : t.status = 0#3) :
    ∃ raw : Nat, a = raw ∧ LegalRange lsb.toNat msb.toNat ∧ raw < 2 ^ width lsb.toNat msb.toNat ∧
      t = complete (commit s (merge s.w lsb.toNat msb.toNat raw)) := by
  obtain ⟨u, hu, rfl⟩ := settle_completed h h0
  obtain ⟨raw, hraw, hu⟩ := bind_ok hu
  obtain ⟨_, hrange, hu⟩ := bind_ok hu
  obtain ⟨hfits, rfl⟩ := place_ok hu
  exact ⟨raw, validUnsigned_ok hraw, validateRange_ok hrange, hfits, rfl⟩

theorem fld_lt_two_pow_32 (w : Word) (lsb msb : Nat) : fld w lsb msb < 2 ^ 32 :=
  calc fld w lsb msb ≤ w.toNat >>> (lsb - 1) := Nat.mod_le _ _
    _ ≤ w.toNat := Nat.shiftRight_le _ _
    _ < 2 ^ 32 := w.isLt

/-- A legal RINT holds every field of W. -/
theorem rintHolds_fld {p : Params} (hp : p.Legal) (w : Word) (lsb msb : Nat) : RintHolds p.rw (fld w lsb msb) :=
  (fitsRint_iff _ _).mp (fitsRint_word hp.2 (fld_lt_two_pow_32 w lsb msb))

theorem exec_getfld_legal {lsb msb : BitVec 5} (hrange : LegalRange lsb.toNat msb.toNat) {s : State}
    (hp : s.params.Legal) :
    exec (.getfld lsb msb) s = .next (reporting { s with rint := fld s.w lsb.toNat msb.toNat } 0#3 0 0) := by
  rw [exec, execGetfld, validateRange_legal hrange, ok_bind, settle_putRint_holds (rintHolds_fld hp s.w _ _)]

/-- Settles O46: the completed SETDISC leaves A in the field, GETFLD reads the field, and A, as a field's value, passes
DECDISC unchanged. -/
theorem discreteRoundTrip : Obligations.DiscreteRoundTrip := by
  intro lsb msb a s t hp h h0
  obtain ⟨raw, rfl, hrange, hfits, ht⟩ := setdisc_completed h h0
  obtain ⟨hparams, -⟩ := exec_params_port h
  have hpt : t.params.Legal := hparams ▸ hp
  have hfield : fld t.w lsb.toNat msb.toNat = raw := by rw [ht, complete_w, fld_commit_merge hrange.wordRange s s.w hfits]
  have hget := exec_getfld_legal hrange hpt
  have hholds := rintHolds_fld hpt t.w lsb.toNat msb.toNat
  rw [hfield] at hget hholds
  obtain ⟨-, hdecode, -⟩ := discreteCodecPassesTheValue .decdisc (.inr rfl) raw
    (reporting { t with rint := raw } 0#3 0 0)
  exact ⟨_, _, hget, rfl, rfl, hdecode (Int.natCast_nonneg raw) hholds, rfl, rfl⟩

end Sys2Proof.Machine

/-! SUPPORT. Family `42_bcd.md`: packing digit by digit, what a BCD field holds, what ENCBCD and DECBCD report, and that a
placed BCD value is read back within the bound of the rounding mode. -/

namespace Sys2Proof.Machine

/-! ## Packing, nibble by nibble (R100, R101) -/

theorem bcdPack_mod_sixteen (n : Nat) : bcdPack n % 16 = n % 10 := by
  obtain rfl | hn := n.eq_zero_or_pos
  · rfl
  · rw [bcdPack_rec hn]
    omega

theorem bcdPack_div_sixteen (n : Nat) : bcdPack n / 16 = bcdPack (n / 10) := by
  obtain rfl | hn := n.eq_zero_or_pos
  · rfl
  · rw [bcdPack_rec hn]
    omega

/-- Dropping low nibbles of a packed value drops as many low digits. -/
theorem bcdPack_div_pow (n k : Nat) : bcdPack n / 16 ^ k = bcdPack (n / 10 ^ k) := by
  induction k with
  | zero => simp
  | succ k ih =>
    calc bcdPack n / 16 ^ (k + 1) = bcdPack n / 16 ^ k / 16 := by rw [pow_succ, Nat.div_div_eq_div_mul]
      _ = bcdPack (n / 10 ^ k / 10) := by rw [ih, bcdPack_div_sixteen]
      _ = bcdPack (n / 10 ^ (k + 1)) := by rw [Nat.div_div_eq_div_mul, pow_succ]

theorem bcdUnpack_bcdPack (m : MalformedPolicy) (n : Nat) : bcdUnpack m (bcdPack n) = .ok n := by
  rw [bcdUnpack_clean m (hasBadNibble_bcdPack n), digits_bcdPack, ofDigits_eq, Nat.ofDigits_digits]

theorem not_badNibble_bcdPack (n : Nat) : ¬ BadNibble (bcdPack n) := by
  rw [← badNibble_iff, hasBadNibble_bcdPack]
  exact Bool.false_ne_true

/-- Nibbles that are all decimal digits are the digits of their weighted sum, so packing that sum restores them. -/
theorem bcdPack_ofDigits {raw : Nat} (h : hasBadNibble raw = false) : bcdPack (ofDigits 10 (digits 16 raw)) = raw := by
  rw [hasBadNibble, digits_eq (by norm_num), List.any_eq_false] at h
  have decimal : ∀ d ∈ Nat.digits 16 raw, d < 10 := fun d hd => by
    have := h d hd
    rw [decide_eq_true_eq] at this
    omega
  have top (hne : Nat.digits 16 raw ≠ []) : (Nat.digits 16 raw).getLast hne ≠ 0 :=
    Nat.getLast_digit_ne_zero 16 (Nat.digits_ne_nil_iff_ne_zero.mp hne)
  rw [digits_eq (by norm_num), ofDigits_eq, bcdPack_eq, Nat.digits_ofDigits 10 (by norm_num) _ decimal top,
    Nat.ofDigits_digits]

/-- Settles O42: nibble `i` is the lowest one once `i` digits are dropped, and packing and unpacking undo each other on
the values without a nibble above 9. -/
theorem bcdPackingIsDigitwise : Obligations.BcdPackingIsDigitwise := by
  refine ⟨fun n i => ?_, bcdUnpack_bcdPack, fun raw => ⟨fun hclean => ?_, ?_⟩⟩
  · rw [bcdPack_div_pow, bcdPack_mod_sixteen]
  · rw [← badNibble_iff, Bool.not_eq_true] at hclean
    exact ⟨_, (bcdPack_ofDigits hclean).symm⟩
  · rintro ⟨n, rfl⟩
    exact not_badNibble_bcdPack n

/-! ## The capacity of a field (R108) -/

theorem le_bcdPack (n : Nat) : n ≤ bcdPack n :=
  calc n = Nat.ofDigits 10 (Nat.digits 10 n) := (Nat.ofDigits_digits 10 n).symm
    _ ≤ Nat.ofDigits 16 (Nat.digits 10 n) := Nat.ofDigits_monotone _ (by norm_num)
    _ = bcdPack n := (bcdPack_eq n).symm

/-- Below ten, packing changes no comparison: a single digit packs to itself, and more digits to 16 or more. -/
theorem bcdPack_lt_iff_of_le_ten {n b : Nat} (hb : b ≤ 10) : bcdPack n < b ↔ n < b := by
  refine ⟨(le_bcdPack n).trans_lt, fun hn => ?_⟩
  have low := bcdPack_mod_sixteen n
  have high := bcdPack_div_sixteen n
  rw [Nat.div_eq_of_lt (by omega : n < 10), bcdPack_zero] at high
  omega

/-- A field of `k` whole nibbles and `j` further bits takes `k` digits below a top digit less than `2 ^ j`. -/
theorem bcdPack_lt_two_pow_iff (n k : Nat) {j : Nat} (hj : j ≤ 3) :
    bcdPack n < 2 ^ (4 * k + j) ↔ n < 2 ^ j * 10 ^ k := by
  have hsplit : 2 ^ (4 * k + j) = 2 ^ j * 16 ^ k := by rw [pow_add, pow_mul, mul_comm]; norm_num
  have hdigit : 2 ^ j ≤ 10 := (Nat.pow_le_pow_right (by norm_num) hj).trans (by norm_num)
  rw [hsplit, ← Nat.div_lt_iff_lt_mul (by positivity), bcdPack_div_pow, bcdPack_lt_iff_of_le_ten hdigit,
    Nat.div_lt_iff_lt_mul (by positivity)]

theorem bcdMax_add_one (w : Nat) : bcdMax w + 1 = 2 ^ (w % 4) * 10 ^ (w / 4) := by
  have hpos : 0 < 2 ^ (w % 4) * 10 ^ (w / 4) := by positivity
  unfold bcdMax
  split
  case isTrue h =>
    rw [h, pow_zero, one_mul] at hpos ⊢
    exact Nat.sub_add_cancel hpos
  case isFalse => exact Nat.sub_add_cancel hpos

/-- Settles O43: the width split into whole nibbles and what is left over. -/
theorem bcdFieldCapacity : Obligations.BcdFieldCapacity := by
  refine ⟨fun w n _ _ => ?_, by decide, by decide, by decide, by decide, by decide +kernel⟩
  have hfits := bcdPack_lt_two_pow_iff n (w / 4) (j := w % 4) (by omega)
  rw [Nat.div_add_mod, ← bcdMax_add_one] at hfits
  exact hfits.trans Nat.lt_succ_iff

/-! ## ENCBCD (R104) -/

/-- Good operands leave ENCBCD the write of RINT only. -/
theorem exec_encbcd_good {vn : Int} {vd : Nat} {rn : Int} {rd : Nat} (h : GoodResolution rn rd ∧ vd ≠ 0 ∧ 0 ≤ vn)
    (s : State) : exec (.encbcd vn vd rn rd) s =
      settle s (putRint s (bcdPack (scale s.params.roundMode (q vn vd) (q rn rd)).toNat)) := by
  rw [exec, execEncbcd, bcdEncode_good h, ok_bind]

/-- Settles O36: the operand checks stop bad operands, and the write of RINT decides on the others. -/
theorem encbcdPacksTheScaledValue : Obligations.EncbcdPacksTheScaledValue := by
  rintro vn vd rn rd s raw rfl
  refine ⟨fun hbad => ?_, fun hgood hholds => ?_, fun n hgood hrw hlarge => ?_⟩
  · rw [exec, execEncbcd, bcdEncode_bad hbad]
    rfl
  · rw [exec_encbcd_good hgood, settle_putRint_holds hholds]
  · rw [exec_encbcd_good hgood, settle_putRint_overflow hrw hlarge]

/-! ## DECBCD (R105, R107) -/

theorem bcdDecode_bad {a rn : Int} {rd : Nat} (h : ¬ GoodResolution rn rd ∨ a < 0) (p : Params) (ss : BitVec 2) :
    bcdDecode p a ss rn rd = .error .valueError := by
  unfold bcdDecode
  by_cases hr : GoodResolution rn rd
  · rw [validResolution_good hr, ok_bind, validUnsigned_neg (h.resolve_left (not_not_intro hr))]
    rfl
  · rw [validResolution_bad hr]
    rfl

/-- A good resolution and a raw value that is not negative leave the unpacking only. -/
theorem bcdDecode_natCast {rn : Int} {rd : Nat} (hr : GoodResolution rn rd) (p : Params) (raw : Nat) (ss : BitVec 2) :
    bcdDecode p raw ss rn rd =
      bcdUnpack p.bcdMalformed raw >>= fun n => .ok ((bcdSign p ss : Rat) * (n : Rat) * q rn rd) := by
  rw [bcdDecode, validResolution_good hr, ok_bind, validUnsigned_nonneg (Int.natCast_nonneg raw), ok_bind,
    Int.toNat_natCast]
  rfl

theorem bcdSign_mul (p : Params) (ss : BitVec 2) (x : Rat) :
    (bcdSign p ss : Rat) * x = if ss = p.bcdNegSsm then -x else x := by
  unfold bcdSign
  split <;> simp

theorem exec_decbcd_error {a : Int} {ss : BitVec 2} {rn : Int} {rd : Nat} {s : State} {e : CmdError}
    (h : bcdDecode s.params a ss rn rd = .error e) : exec (.decbcd a ss rn rd) s = .next (abort e s) := by
  rw [exec, execDecbcd, h, error_bind, settle_error]

theorem exec_decbcd_ok {a : Int} {ss : BitVec 2} {rn : Int} {rd : Nat} {s : State} {v : Rat}
    (h : bcdDecode s.params a ss rn rd = .ok v) :
    exec (.decbcd a ss rn rd) s = .next (reporting { s with rq := v } 0#3 0 0) := by
  rw [exec, execDecbcd, h, ok_bind]
  rfl

/-- Settles O38: the operand checks stop bad operands, and the unpacking of the others gives the digits, raises, or under
WEIGHTED_SUM gives some value. -/
theorem decbcdRecoversTheDigits : Obligations.DecbcdRecoversTheDigits := by
  intro a ss rn rd s
  refine ⟨fun hbad => ?_, fun n hr ha => ?_, fun hr hnonneg hnibble hpolicy => ?_, fun hr hnonneg _ hpolicy => ?_⟩
  · exact exec_decbcd_error (bcdDecode_bad hbad s.params ss)
  · subst ha
    refine exec_decbcd_ok ?_
    rw [bcdDecode_natCast hr, bcdUnpack_bcdPack, ok_bind, mul_assoc, bcdSign_mul]
  · lift a to Nat using hnonneg
    refine exec_decbcd_error (e := .malformedBcd) ?_
    rw [bcdDecode_natCast hr, hpolicy, bcdUnpack_bad ((badNibble_iff a).mpr hnibble), error_bind]
  · lift a to Nat using hnonneg
    have hdec := bcdDecode_natCast hr s.params a ss
    rw [hpolicy, bcdUnpack, ok_bind] at hdec
    exact ⟨_, exec_decbcd_ok hdec⟩

theorem exec_decbcd_packed_of_ne {ss : BitVec 2} {rn : Int} {rd : Nat} {s : State} (hr : GoodResolution rn rd)
    (hss : ss ≠ s.params.bcdNegSsm) (n : Nat) :
    exec (.decbcd (bcdPack n) ss rn rd) s = .next (reporting { s with rq := (n : Rat) * q rn rd } 0#3 0 0) := by
  obtain ⟨-, hdecode, -⟩ := decbcdRecoversTheDigits (bcdPack n) ss rn rd s
  rw [hdecode n hr rfl, if_neg hss]

/-! ## A BCD value placed and read back (R109) -/

/-- GETFLD of the field just placed reads the raw value placed. -/
theorem exec_getfld_placed {lsb msb : BitVec 5} (hrange : LegalRange lsb.toNat msb.toNat) {raw : Nat}
    (hfits : raw < 2 ^ width lsb.toNat msb.toNat) {s t : State} (hp : s.params.Legal)
    (ht : t = complete (commit s (merge s.w lsb.toNat msb.toNat raw))) :
    exec (.getfld lsb msb) t = .next (reporting { t with rint := raw } 0#3 0 0) := by
  subst ht
  rw [exec_getfld_legal hrange (by simpa using hp), complete_w, fld_commit_merge hrange.wordRange s s.w hfits]

theorem bcdEncode_ok {p : Params} {vn : Int} {vd : Nat} {rn : Int} {rd raw : Nat}
    (h : bcdEncode p vn vd rn rd = .ok raw) :
    (GoodResolution rn rd ∧ vd ≠ 0 ∧ 0 ≤ vn) ∧ raw = bcdPack (scale p.roundMode (q vn vd) (q rn rd)).toNat := by
  by_cases hgood : GoodResolution rn rd ∧ vd ≠ 0 ∧ 0 ≤ vn
  · rw [bcdEncode_good hgood] at h
    cases h
    exact ⟨hgood, rfl⟩
  · rw [bcdEncode_bad hgood] at h
    cases h

/-- What a SETBCD that completed says of its operands, and the state it answers with. -/
theorem setbcd_completed {lsb msb : BitVec 5} {vn : Int} {vd : Nat} {rn : Int} {rd : Nat} {s t : State}
    (h : exec (.setbcd lsb msb vn vd rn rd) s = .next t) (h0 : t.status = 0#3) :
    ∃ raw : Nat, (GoodResolution rn rd ∧ vd ≠ 0 ∧ 0 ≤ vn) ∧
      raw = bcdPack (scale s.params.roundMode (q vn vd) (q rn rd)).toNat ∧ LegalRange lsb.toNat msb.toNat ∧
      raw < 2 ^ width lsb.toNat msb.toNat ∧ t = complete (commit s (merge s.w lsb.toNat msb.toNat raw)) := by
  obtain ⟨u, hu, rfl⟩ := settle_completed h h0
  obtain ⟨raw, hraw, hu⟩ := bind_ok hu
  obtain ⟨_, hrange, hu⟩ := bind_ok hu
  obtain ⟨hfits, rfl⟩ := place_ok hu
  obtain ⟨hgood, hpack⟩ := bcdEncode_ok hraw
  exact ⟨raw, hgood, hpack, validateRange_ok hrange, hfits, rfl⟩

theorem q_nonneg {n : Int} (d : Nat) (h : 0 ≤ n) : 0 ≤ q n d :=
  div_nonneg (by exact_mod_cast h) (Nat.cast_nonneg d)

/-- The error of a scaled value is the rounding error of the quotient, in units of the resolution. -/
theorem scale_mul_sub (m : RoundMode) (v : Rat) {r : Rat} (hr : 0 < r) :
    (scale m v r : Rat) * r - v = ((roundQ m (v / r) : Rat) - v / r) * r := by
  rw [sub_mul, div_mul_cancel₀ v hr.ne', scale]

theorem abs_scale_nearest_mul_sub_le (v : Rat) {r : Rat} (hr : 0 < r) :
    |(scale .nearestAway v r : Rat) * r - v| ≤ r / 2 := by
  obtain ⟨hnear, -⟩ := roundingFollowsTheMode (v / r)
  rw [scale_mul_sub _ v hr, abs_mul, abs_of_pos hr]
  linarith [mul_le_mul_of_nonneg_right hnear hr.le]

/-- Truncation of a value that is not negative loses less than one unit of resolution, and never gains. -/
theorem sub_scale_toward_mul_bounds {v r : Rat} (hv : 0 ≤ v) (hr : 0 < r) :
    0 ≤ v - (scale .towardZero v r : Rat) * r ∧ v - (scale .towardZero v r : Rat) * r < r := by
  obtain ⟨hle, hlt⟩ := roundQ_toward_bounds (div_nonneg hv hr.le)
  rw [le_div_iff₀ hr] at hle
  rw [div_lt_iff₀ hr, add_mul, one_mul] at hlt
  constructor <;> rw [scale] <;> linarith

/-- Settles O47: the completed SETBCD leaves the packed digits of round(v / r) in the field, GETFLD reads them, DECBCD
recovers the number, and the distance to v is the rounding error. -/
theorem bcdRoundTrip : Obligations.BcdRoundTrip := by
  intro lsb msb vn vd rn rd ss s t hp h h0 hss
  obtain ⟨raw, ⟨hr, -, hvn⟩, hraw, hrange, hfits, ht⟩ := setbcd_completed h h0
  obtain ⟨hparams, -⟩ := exec_params_port h
  have hrpos : 0 < q rn rd := q_pos hr
  have hv : 0 ≤ q vn vd := q_nonneg vd hvn
  have hss' : ss ≠ t.params.bcdNegSsm := by rwa [hparams]
  have hcast : (((scale s.params.roundMode (q vn vd) (q rn rd)).toNat : Nat) : Rat) =
      scale s.params.roundMode (q vn vd) (q rn rd) := by
    exact_mod_cast Int.toNat_of_nonneg (scale_nonneg s.params.roundMode hv hrpos)
  have hget := exec_getfld_placed hrange hfits hp ht
  have hdec := exec_decbcd_packed_of_ne (s := reporting { t with rint := raw } 0#3 0 0) hr hss'
    (scale s.params.roundMode (q vn vd) (q rn rd)).toNat
  rw [← hraw, hcast] at hdec
  refine ⟨_, _, hget, hdec, rfl, rfl, fun hmode => ?_, fun hmode => ?_⟩ <;> rw [reporting_rq, hmode]
  · exact abs_scale_nearest_mul_sub_le _ hrpos
  · exact sub_scale_toward_mul_bounds hv hrpos

end Sys2Proof.Machine

/-! SUPPORT. Family `43_bnr.md`: two's complement in a field of w bits, the values a BNR field stands for, what ENCBNR and
DECBNR report, and that a placed BNR value is read back within the bound of the rounding mode. -/

namespace Sys2Proof.Machine

/-! ## Two's complement (R116, R121) -/

/-- Everything `bnrWrap` can accept, and the raw value it gives. -/
theorem bnrWrap_ok {n : Int} {w raw : Nat} (h : bnrWrap n w = .ok raw) :
    -(2 ^ (w - 1) : Int) ≤ n ∧ n < (2 ^ (w - 1) : Int) ∧ raw = (n % (2 ^ w : Int)).toNat := by
  by_cases hout : n < -(2 ^ (w - 1) : Int) ∨ (2 ^ (w - 1) : Int) ≤ n
  · rw [bnrWrap_overflow hout] at h
    cases h
  · obtain ⟨hlow, hhigh⟩ := not_or.mp hout
    rw [bnrWrap_fits (not_lt.mp hlow) (not_le.mp hhigh)] at h
    cases h
    exact ⟨not_lt.mp hlow, not_le.mp hhigh, rfl⟩

/-- Sign extension undoes wrapping. -/
theorem sext_bnrWrap {n : Int} {w raw : Nat} (hw : 1 ≤ w) (h : bnrWrap n w = .ok raw) : sext w raw = n := by
  obtain ⟨hlow, hhigh, rfl⟩ := bnrWrap_ok h
  exact sext_emod hw hlow hhigh

/-- Settles O44: the range check of `bnrWrap` stops what is no signed w-bit integer, and what it accepts is reduced
modulo 2^w. -/
theorem bnrWrapIsTwosComplement : Obligations.BnrWrapIsTwosComplement := by
  intro n w hw _
  refine ⟨fun hout => bnrWrap_overflow (by omega), fun hlow hhigh => ?_⟩
  have hwrap := bnrWrap_fits hlow (by omega)
  exact ⟨_, hwrap, bnrWrap_lt hwrap, Int.toNat_of_nonneg (Int.emod_nonneg n (by positivity)), sext_bnrWrap hw hwrap⟩

/-- What `w` bits read as two's complement is a signed w-bit integer (R7). -/
theorem sext_bounds {w raw : Nat} (hw : 1 ≤ w) (h : raw < 2 ^ w) :
    -(2 ^ (w - 1) : Int) ≤ sext w raw ∧ sext w raw ≤ (2 ^ (w - 1) : Int) - 1 := by
  have hhalf : 2 ^ w = 2 * 2 ^ (w - 1) := (mul_pow_sub_one (by omega) 2).symm
  rw [sext_cases hw h]
  zify at h hhalf ⊢
  split <;> omega

/-- Settles O45: sign extension maps the raw values of w bits onto the signed w-bit integers, and wrapping
gives each of them a raw value. -/
theorem bnrFieldRange : Obligations.BnrFieldRange := by
  intro w r x hw hw19
  constructor
  · rintro ⟨raw, hraw, rfl⟩
    obtain ⟨hlow, hhigh⟩ := sext_bounds hw hraw
    exact ⟨sext w raw, hlow, hhigh, rfl⟩
  · rintro ⟨n, hlow, hhigh, rfl⟩
    obtain ⟨-, hinside⟩ := bnrWrapIsTwosComplement n w hw hw19
    obtain ⟨raw, -, hraw, -, hsext⟩ := hinside hlow hhigh
    exact ⟨raw, hraw, by rw [hsext]⟩

/-! ## ENCBNR (R118) -/

/-- Good operands leave ENCBNR the write of RINT only. -/
theorem exec_encbnr_good {vn : Int} {vd : Nat} {rn : Int} {rd : Nat} (h : GoodResolution rn rd ∧ vd ≠ 0) (s : State) :
    exec (.encbnr vn vd rn rd) s = settle s (putRint s (scale s.params.roundMode (q vn vd) (q rn rd))) := by
  rw [exec, execEncbnr, bnrEncode_good h, ok_bind]

/-- Settles O37: the operand checks stop bad operands, and the write of RINT decides on the others. -/
theorem encbnrScalesTheValue : Obligations.EncbnrScalesTheValue := by
  rintro vn vd rn rd s n rfl
  refine ⟨fun hbad => ?_, fun hgood hholds => ?_, fun k hgood hrw hlarge => ?_⟩
  · rw [exec, execEncbnr, bnrEncode_bad hbad]
    rfl
  · rw [exec_encbnr_good hgood, settle_putRint_holds hholds]
  · rw [exec_encbnr_good hgood, settle_putRint_overflow hrw hlarge]

/-! ## DECBNR (R117, R119) -/

theorem bnrDecode_bad {a rn : Int} {bc rd : Nat} (h : ¬ GoodResolution rn rd ∨ a < 0 ∨ bc = 0) :
    bnrDecode a bc rn rd = .error .valueError := by
  unfold bnrDecode
  by_cases hr : GoodResolution rn rd
  · rw [validResolution_good hr, ok_bind]
    obtain hneg | hnonneg := lt_or_ge a 0
    · rw [validUnsigned_neg hneg]
      rfl
    · have hbc : bc = 0 := (h.resolve_left (not_not_intro hr)).resolve_left (not_lt.mpr hnonneg)
      rw [validUnsigned_nonneg hnonneg, ok_bind, if_pos hbc]
      rfl
  · rw [validResolution_bad hr]
    rfl

/-- A good resolution, a raw value that is not negative and a positive width leave the length check only. -/
theorem bnrDecode_natCast {rn : Int} {bc rd : Nat} (hr : GoodResolution rn rd) (hbc : bc ≠ 0) (raw : Nat) :
    bnrDecode raw bc rn rd = (validateBitLength raw bc).map fun _ => (sext bc raw : Rat) * q rn rd := by
  rw [bnrDecode, validResolution_good hr, ok_bind, validUnsigned_nonneg (Int.natCast_nonneg raw), ok_bind,
    Int.toNat_natCast, if_neg hbc]
  rfl

theorem exec_decbnr_error {a : Int} {cnt : BitVec 6} {rn : Int} {rd : Nat} {s : State} {e : CmdError}
    (h : bnrDecode a cnt.toNat rn rd = .error e) : exec (.decbnr a cnt rn rd) s = .next (abort e s) := by
  rw [exec, execDecbnr, h, error_bind, settle_error]

/-- Good operands, with a raw value that fits CNT bits, leave DECBNR the write of RQ only. -/
theorem exec_decbnr_fits {cnt : BitVec 6} {rn : Int} {rd : Nat} (hr : GoodResolution rn rd) (hcnt : cnt.toNat ≠ 0)
    {raw : Nat} (hraw : raw < 2 ^ cnt.toNat) (s : State) :
    exec (.decbnr raw cnt rn rd) s =
      .next (reporting { s with rq := (sext cnt.toNat raw : Rat) * q rn rd } 0#3 0 0) := by
  rw [exec, execDecbnr, bnrDecode_natCast hr hcnt, validateBitLength_fits hraw]
  rfl

/-- Settles O39: the operand checks stop bad operands, the length check stops an A of more than CNT bits, and the sign
extension of the others compares A with half the range. -/
theorem decbnrSignExtendsAndScales : Obligations.DecbnrSignExtendsAndScales := by
  intro a cnt rn rd s
  have hcnt0 : cnt ≠ 0 → cnt.toNat ≠ 0 := fun hcnt h => hcnt (BitVec.eq_of_toNat_eq h)
  refine ⟨fun hbad => ?_, fun hr hcnt hlarge => ?_, fun hr hcnt hnonneg hlow => ?_, fun hr hcnt hhigh hfits => ?_⟩
  · exact exec_decbnr_error (bnrDecode_bad (hbad.imp_right (Or.imp_right (congrArg BitVec.toNat))))
  · lift a to Nat using le_trans (by positivity) hlarge
    refine exec_decbnr_error (e := .fieldOverflow a cnt.toNat) ?_
    rw [bnrDecode_natCast hr (hcnt0 hcnt), validateBitLength_overflow (by exact_mod_cast hlarge)]
    rfl
  · lift a to Nat using hnonneg
    have hlow' : a < 2 ^ (cnt.toNat - 1) := by exact_mod_cast hlow
    have hraw : a < 2 ^ cnt.toNat := hlow'.trans_le (Nat.pow_le_pow_right (by decide) (Nat.sub_le _ _))
    rw [exec_decbnr_fits hr (hcnt0 hcnt) hraw, sext_cases (Nat.pos_of_ne_zero (hcnt0 hcnt)) hraw, if_pos hlow']
  · lift a to Nat using le_trans (by positivity) hhigh
    have hhigh' : ¬ a < 2 ^ (cnt.toNat - 1) := not_lt.mpr (by exact_mod_cast hhigh)
    have hraw : a < 2 ^ cnt.toNat := by exact_mod_cast hfits
    rw [exec_decbnr_fits hr (hcnt0 hcnt) hraw, sext_cases (Nat.pos_of_ne_zero (hcnt0 hcnt)) hraw, if_neg hhigh']

/-! ## A BNR value placed and read back (R122) -/

theorem bnrEncode_ok {p : Params} {vn : Int} {vd : Nat} {rn : Int} {rd : Nat} {n : Int}
    (h : bnrEncode p vn vd rn rd = .ok n) :
    (GoodResolution rn rd ∧ vd ≠ 0) ∧ n = scale p.roundMode (q vn vd) (q rn rd) := by
  by_cases hgood : GoodResolution rn rd ∧ vd ≠ 0
  · rw [bnrEncode_good hgood] at h
    cases h
    exact ⟨hgood, rfl⟩
  · rw [bnrEncode_bad hgood] at h
    cases h

/-- What a SETBNR that completed says of its operands, and the state it answers with. -/
theorem setbnr_completed {lsb msb : BitVec 5} {vn : Int} {vd : Nat} {rn : Int} {rd : Nat} {s t : State}
    (h : exec (.setbnr lsb msb vn vd rn rd) s = .next t) (h0 : t.status = 0#3) :
    ∃ raw : Nat, (GoodResolution rn rd ∧ vd ≠ 0) ∧ LegalRange lsb.toNat msb.toNat ∧
      bnrWrap (scale s.params.roundMode (q vn vd) (q rn rd)) (width lsb.toNat msb.toNat) = .ok raw ∧
      t = complete (commit s (merge s.w lsb.toNat msb.toNat raw)) := by
  obtain ⟨u, hu, rfl⟩ := settle_completed h h0
  obtain ⟨n, hn, hu⟩ := bind_ok hu
  obtain ⟨_, hrange, hu⟩ := bind_ok hu
  obtain ⟨raw, hwrap, hu⟩ := bind_ok hu
  cases hu
  obtain ⟨hgood, rfl⟩ := bnrEncode_ok hn
  exact ⟨raw, hgood, validateRange_ok hrange, hwrap, rfl⟩

/-- Truncation moves a value of either sign by less than one unit of resolution. -/
theorem abs_scale_toward_mul_sub_lt (v : Rat) {r : Rat} (hr : 0 < r) :
    |(scale .towardZero v r : Rat) * r - v| < r := by
  obtain ⟨-, -, hlt, -⟩ := roundingFollowsTheMode (v / r)
  rw [scale_mul_sub _ v hr, abs_mul, abs_of_pos hr, abs_sub_comm]
  exact mul_lt_of_lt_one_left hr hlt

/-- Truncation takes no value farther from zero. -/
theorem abs_scale_toward_mul_le (v : Rat) {r : Rat} (hr : 0 < r) : |(scale .towardZero v r : Rat) * r| ≤ |v| := by
  obtain ⟨-, -, -, hle, -⟩ := roundingFollowsTheMode (v / r)
  rw [abs_div, abs_of_pos hr, le_div_iff₀ hr] at hle
  rwa [abs_mul, abs_of_pos hr]

/-- Settles O48: the completed SETBNR leaves the wrapped round(v / r) in the field, GETFLD reads it, DECBNR at the field's
width undoes the wrapping, and the distance to v is the rounding error. -/
theorem bnrRoundTrip : Obligations.BnrRoundTrip := by
  intro lsb msb vn vd rn rd cnt s t hp h h0 hcnt
  obtain ⟨raw, ⟨hr, -⟩, hrange, hwrap, ht⟩ := setbnr_completed h h0
  have hrpos : 0 < q rn rd := q_pos hr
  have hfits : raw < 2 ^ width lsb.toNat msb.toNat := bnrWrap_lt hwrap
  have hget := exec_getfld_placed hrange hfits hp ht
  have hwidth : width lsb.toNat msb.toNat = cnt.toNat := hcnt.symm
  have hcnt1 : 1 ≤ cnt.toNat := hcnt ▸ Nat.le_add_left 1 _
  rw [hwidth] at hfits hwrap
  have hdec := exec_decbnr_fits hr (Nat.ne_of_gt hcnt1) hfits (reporting { t with rint := raw } 0#3 0 0)
  rw [sext_bnrWrap hcnt1 hwrap] at hdec
  refine ⟨_, _, hget, hdec, rfl, rfl, fun hmode => ?_, fun hmode => ?_⟩ <;> rw [reporting_rq, hmode]
  · exact abs_scale_nearest_mul_sub_le _ hrpos
  · exact ⟨abs_scale_toward_mul_sub_lt _ hrpos, abs_scale_toward_mul_le _ hrpos⟩

end Sys2Proof.Machine

/-! SUPPORT. Family `44_word.md`: NOP and NEW, what each setter of W places or reports, GETFLD and PARGEN, and that a
bit-range set leaves every field it does not overlap. -/

namespace Sys2Proof.Machine

/-! ## NOP and NEW (R130, R132, R181) -/

/-- Settles O25: NOP stages nothing, and completing clears the outcome registers. -/
theorem nopOnlyClearsTheOutcome : Obligations.NopOnlyClearsTheOutcome := fun _ => rfl

theorem exec_new (s : State) : exec .new s = .next (resetRegisters s) := rfl

theorem step_of_reset {s : State} (h : request s.params s.port.head? = .reset) :
    step s = .next (resetRegisters (takeSample s)) := by
  rw [step, h]

/-- Settles O3: NEW and a step with RST asserted both leave `resetRegisters`, the step after taking its sample. -/
theorem newLeavesTheResetState : Obligations.NewLeavesTheResetState := by
  intro s cmd
  refine ⟨exec_new s, ?_⟩
  rw [exec_new, step_of_reset rfl]
  rfl

/-! ## The label, SDI and SSM setters (R133 to R135) -/

/-- A setter whose checks raise reports the error and writes nothing else. -/
theorem exec_setter_raises {i : Instr} (hi : isSetter i = true) {s : State} {e : CmdError}
    (h : setterField s.params i = .error e) : exec i s = .next (reporting s e.code e.errval e.errw) := by
  rw [exec_setter hi, h]
  rfl

/-- A setter whose checks pass places its raw value in its field. -/
theorem exec_setter_places {i : Instr} (hi : isSetter i = true) {s : State} {lsb msb raw : Nat}
    (h : setterField s.params i = .ok (lsb, msb, raw)) : ∃ t, exec i s = .next t ∧ Placed s t lsb msb raw := by
  obtain ⟨hrange, hfits, -⟩ := setterField_ok hi h
  rw [exec_setter hi, h]
  exact ⟨_, rfl, placed_commit_merge hrange s hfits⟩

/-- Settles O26: the one check of SETLBL decides between the error and the field of bits 1 to 8. -/
theorem setlblWritesTheLabel : Obligations.SetlblWritesTheLabel := by
  intro a s
  refine ⟨fun hout => ?_, fun hin => ?_⟩
  · exact exec_setter_raises (e := .rangeError) rfl (if_pos hout)
  · exact exec_setter_places rfl (if_neg (by omega))

/-- Settles O27: neither setter has a check, and each names its own field. -/
theorem setsdiAndSetssmWriteTheirFields : Obligations.SetsdiAndSetssmWriteTheirFields := fun _ _ =>
  ⟨exec_setter_places rfl rfl, exec_setter_places rfl rfl⟩

/-! ## The bit-range sets (R136 to R139)

Once a set's operands are good, the range check and then the width check decide how it ends (R163). -/

theorem settle_illegalRange {lsb msb : Nat} (h : ¬ LegalRange lsb msb) (s : State) (f : Unit → Except CmdError State) :
    settle s (validateRange lsb msb >>= f) = .next (reporting s 1#3 0 0) := by
  rw [validateRange_illegal h]
  rfl

theorem settle_legalRange {lsb msb : Nat} (h : LegalRange lsb msb) (s : State) (f : Unit → Except CmdError State) :
    settle s (validateRange lsb msb >>= f) = settle s (f ()) := by
  rw [validateRange_legal h, ok_bind]

theorem settle_place_overflow {lsb msb raw : Nat} (h : 2 ^ (msb - lsb + 1) ≤ raw) (s : State) :
    settle s (place s lsb msb raw) = .next (reporting s 2#3 raw (msb - lsb + 1)) := by
  rw [place_overflow s h]
  rfl

theorem settle_place_places {lsb msb raw : Nat} (hrange : LegalRange lsb msb) (h : raw < 2 ^ (msb - lsb + 1))
    (s : State) : ∃ t, settle s (place s lsb msb raw) = .next t ∧ Placed s t lsb msb raw := by
  rw [place_fits s h]
  exact ⟨_, rfl, placed_commit_merge hrange.wordRange s h⟩

/-- An A that is not negative leaves SETDISC the range check and the placement. -/
theorem exec_setdisc_natCast (lsb msb : BitVec 5) (raw : Nat) (s : State) :
    exec (.setdisc lsb msb raw) s =
      settle s (validateRange lsb.toNat msb.toNat >>= fun _ => place s lsb.toNat msb.toNat raw) := by
  rw [exec, execSetdisc, discEncode, validUnsigned_nonneg (Int.natCast_nonneg raw), ok_bind, Int.toNat_natCast]

/-- Settles O28: the sign check stops a negative A, and the range and the width decide on the others. -/
theorem setdiscPlacesOrReports : Obligations.SetdiscPlacesOrReports := by
  intro lsb msb a s
  refine ⟨fun hneg => ?_, fun hnonneg hillegal => ?_, fun hnonneg hrange hlarge => ?_, fun hnonneg hrange hfits => ?_⟩
  · rw [exec, execSetdisc, discEncode, validUnsigned_neg hneg]
    rfl
  all_goals
    lift a to Nat using hnonneg
    rw [exec_setdisc_natCast]
  · exact settle_illegalRange hillegal s _
  · rw [settle_legalRange hrange]
    exact settle_place_overflow hlarge s
  · rw [settle_legalRange hrange]
    exact settle_place_places hrange hfits s

/-- Good operands leave SETBCD the range check and the placement. -/
theorem exec_setbcd_good {vn : Int} {vd : Nat} {rn : Int} {rd : Nat} (h : GoodResolution rn rd ∧ vd ≠ 0 ∧ 0 ≤ vn)
    (lsb msb : BitVec 5) (s : State) :
    exec (.setbcd lsb msb vn vd rn rd) s =
      settle s (validateRange lsb.toNat msb.toNat >>= fun _ =>
        place s lsb.toNat msb.toNat (bcdPack (scale s.params.roundMode (q vn vd) (q rn rd)).toNat)) := by
  rw [exec, execSetbcd, bcdEncode_good h, ok_bind]

/-- Settles O29: the operand checks stop bad operands, and the range and the width decide on the others. -/
theorem setbcdPlacesOrReports : Obligations.SetbcdPlacesOrReports := by
  rintro lsb msb vn vd rn rd s raw rfl
  refine ⟨fun hbad => ?_, fun hgood hillegal => ?_, fun hgood hrange hlarge => ?_, fun hgood hrange hfits => ?_⟩
  · rw [exec, execSetbcd, bcdEncode_bad hbad]
    rfl
  · rw [exec_setbcd_good hgood, settle_illegalRange hillegal]
  · rw [exec_setbcd_good hgood, settle_legalRange hrange, settle_place_overflow hlarge]
  · rw [exec_setbcd_good hgood, settle_legalRange hrange]
    exact settle_place_places hrange hfits s

/-- Good operands leave SETBNR the range check, the signed width check and the merge. -/
theorem exec_setbnr_good {vn : Int} {vd : Nat} {rn : Int} {rd : Nat} (h : GoodResolution rn rd ∧ vd ≠ 0)
    (lsb msb : BitVec 5) (s : State) :
    exec (.setbnr lsb msb vn vd rn rd) s =
      settle s (validateRange lsb.toNat msb.toNat >>= fun _ =>
        bnrWrap (scale s.params.roundMode (q vn vd) (q rn rd)) (width lsb.toNat msb.toNat) >>= fun raw =>
          .ok (commit s (merge s.w lsb.toNat msb.toNat raw))) := by
  rw [exec, execSetbnr, bnrEncode_good h]
  rfl

/-- Settles O30: the operand checks stop bad operands, and the range and the signed width decide on the others. -/
theorem setbnrPlacesOrReports : Obligations.SetbnrPlacesOrReports := by
  rintro lsb msb vn vd rn rd s n rfl
  refine ⟨fun hbad => ?_, fun hgood hillegal => ?_, fun hgood hrange hout => ?_, fun hgood hrange hlow hhigh => ?_⟩
  · rw [exec, execSetbnr, bnrEncode_bad hbad]
    rfl
  · rw [exec_setbnr_good hgood, settle_illegalRange hillegal]
  · rw [exec_setbnr_good hgood, settle_legalRange hrange, bnrWrap_overflow hout]
    rfl
  · have hwrap := bnrWrap_fits (w := width lsb.toNat msb.toNat) hlow hhigh
    rw [exec_setbnr_good hgood, settle_legalRange hrange, hwrap]
    exact ⟨_, rfl, placed_commit_merge hrange.wordRange s (bnrWrap_lt hwrap)⟩

/-! ## GETFLD and PARGEN (R140, R141) -/

/-- Settles O31: the range check decides, and a legal RINT holds every field. -/
theorem getfldReadsTheField : Obligations.GetfldReadsTheField := by
  intro lsb msb s
  refine ⟨fun hillegal => settle_illegalRange hillegal s _, fun hrange hlegal => ?_⟩
  rw [exec_getfld_legal hrange hlegal, fld_eq_bitsOf]

theorem bitsOf_withParity_low (x : BitVec 31) : bitsOf (withParity x) 1 31 = x.toNat :=
  calc bitsOf (withParity x) 1 31 = ((withParity x).extractLsb' 0 31).toNat := (extractLsb'_toNat_eq_bitsOf _ 1 31).symm
    _ = x.toNat := congrArg BitVec.toNat BitVec.extractLsb'_append_eq_right

/-- Settles O32: the word is A's low 31 bits completed with their parity bit, and a legal RINT holds every word. -/
theorem pargenCompletesTheParity : Obligations.PargenCompletesTheParity := by
  intro a s hlegal
  have hholds : RintHolds s.params.rw (withParity (BitVec.ofInt 31 a)).toNat :=
    (fitsRint_iff _ _).mp (fitsRint_word hlegal.2 (BitVec.isLt _))
  refine ⟨_, settle_putRint_holds hholds, ?_, popcount_withParity _⟩
  rw [bitsOf_withParity_low, BitVec.toNat_ofInt, Int.toNat_of_nonneg (Int.emod_nonneg a (by decide))]
  rfl

/-! ## Independence of fields (R142) -/

/-- Two words that agree on a field's bits read alike there. -/
theorem fld_congr {lsb msb : Nat} {u v : Word}
    (h : ∀ k, lsb ≤ k → k ≤ msb → u.getLsbD (k - 1) = v.getLsbD (k - 1)) (h1 : 1 ≤ lsb) (h2 : lsb ≤ msb) :
    fld u lsb msb = fld v lsb msb := by
  refine Nat.eq_of_testBit_eq fun j => ?_
  rw [fld_testBit, fld_testBit]
  by_cases hj : j < width lsb msb
  · have hbit := h (lsb + j) (by omega) (by unfold width at hj; omega)
    rw [Nat.sub_add_comm h1] at hbit
    rw [hbit]
  · rw [decide_eq_false hj, Bool.false_and, Bool.false_and]

/-- A bit-range set may write the bits of the field it names and no others (R44). -/
theorem mayWriteBit_of_fieldOf {i : Instr} {lsb msb : BitVec 5} (h : fieldOf i = some (lsb, msb)) (k : Nat) :
    mayWriteBit i k ↔ lsb.toNat ≤ k ∧ k ≤ msb.toNat := by
  cases i with
  | setdisc | setbcd | setbnr =>
    cases h
    exact Iff.rfl
  | _ => cases h

/-- Settles O49: the set, completed or not, changes no bit of the other field, so GETFLD reads the same there. -/
theorem disjointFieldsAreIndependent : Obligations.DisjointFieldsAreIndependent := by
  intro i lsb msb lsb' msb' s t hlegal hfield h hrange hdisjoint
  obtain ⟨hparams, -⟩ := exec_params_port h
  have hlegal' : t.params.Legal := hparams ▸ hlegal
  have hkept : fld t.w lsb'.toNat msb'.toNat = fld s.w lsb'.toNat msb'.toNat := by
    obtain ⟨hlow, hle, hhigh⟩ := id hrange
    refine fld_congr (fun k hk hk' => ?_) (by omega) hle
    have hout : ¬ mayWriteBit i k := by
      rw [mayWriteBit_of_fieldOf hfield]
      omega
    exact commandsChangeOnlyTheirBits i s t k h (by omega) (by omega) hout
  exact ⟨_, _, exec_getfld_legal hrange hlegal, exec_getfld_legal hrange hlegal', rfl, rfl, congrArg Nat.cast hkept⟩

end Sys2Proof.Machine

/-! SUPPORT. Family `60_exceptions.md`: what an aborted command leaves as it was, and the outcome every command reports. -/

namespace Sys2Proof.Machine

/-- A command with a STATUS other than 0 has aborted: it answers with the error alone written to the state before. -/
theorem exec_aborted {i : Instr} {s t : State} (h : exec i s = .next t) (h0 : t.status ≠ 0#3) :
    ∃ e, raisedByCommand e ∧ t = abort e s := by
  obtain ⟨u, -, he⟩ | ⟨e, hr, he⟩ := exec_next i s
  · cases he.symm.trans h
    exact absurd (complete_status u) h0
  · cases he.symm.trans h
    exact ⟨e, hr, rfl⟩

/-- Settles O19: the command has aborted, and only FieldOverflowError carries diagnostics. -/
theorem abortChangesOnlyTheOutcomeRegisters : Obligations.AbortChangesOnlyTheOutcomeRegisters := by
  intro i s t h h0
  obtain ⟨e, -, rfl⟩ := exec_aborted h h0
  exact ⟨abort_eq_reporting e s, e.quiet⟩

/-- The codes of the errors a decoded command raises are the codes 1 to 4 of R162. -/
theorem CmdError.code_le_four {e : CmdError} (h : raisedByCommand e) : e.code.toNat ≤ 4 := by
  cases e with
  | illegal => exact h.elim
  | rangeError | fieldOverflow | valueError | malformedBcd => simp [CmdError.code]

/-- Settles O20: a completed command clears the outcome registers, and an aborted one writes those of its error. -/
theorem everyCommandReportsAnOutcome : Obligations.EveryCommandReportsAnOutcome := by
  intro i s
  obtain ⟨u, -, he⟩ | ⟨e, hr, he⟩ := exec_next i s
  · exact ⟨complete u, he, by simp, fun _ => ⟨complete_errval u, complete_errw u⟩⟩
  · exact ⟨abort e s, he, CmdError.code_le_four hr, e.quiet⟩

end Sys2Proof.Machine

/-! SUPPORT. Family `70_reset_and_hazards.md`: a step always answers, what a sample with RST asserted does, and that setters
of disjoint fields commute. -/

namespace Sys2Proof.Machine

/-! ## The block never stops (R188) -/

/-- Settles O14: waiting, reset and the report of an illegal header answer outright, and a command that runs
reports an outcome in a next state (O20). -/
theorem everyStepAnswersNext : Obligations.EveryStepAnswersNext := by
  intro s
  obtain ⟨-, hs⟩ | ⟨-, hs⟩ | ⟨-, hs⟩ | ⟨i, -, hs⟩ := step_cases s
  · exact ⟨_, hs⟩
  · exact ⟨_, hs⟩
  · exact ⟨_, hs⟩
  · obtain ⟨t, ht, -⟩ := everyCommandReportsAnOutcome i (takeSample s)
    exact ⟨t, hs.trans ht⟩

/-! ## RST asserted (R180) -/

theorem request_of_rst (p : Params) {cmd : Option Command} {port rest : List PortSample}
    (h : port = ⟨true, cmd⟩ :: rest) : request p port.head? = .reset := by
  rw [h]
  rfl

theorem step_of_rst {s : State} {cmd : Option Command} {rest : List PortSample} (h : s.port = ⟨true, cmd⟩ :: rest) :
    step s = .next { State.reset with params := s.params, port := rest } := by
  rw [step_of_reset (request_of_rst _ h), takeSample_of_port_cons h]
  rfl

/-- Settles O2: the sample's request is to reset, whatever its command, and the next sample's command runs on what that
left (O11). -/
theorem assertedResetAcceptsNoCommand : Obligations.AssertedResetAcceptsNoCommand := by
  intro s cmd rest hport
  refine ⟨_, step_of_rst hport, rfl, rfl, rfl, rfl, rfl, rfl, rfl, rfl, fun c i rest' hrest hdec => ?_⟩
  exact stepRunsTheDecodedCommand _ c i rest' hrest hdec

/-! ## Setters of disjoint fields (R182, R142) -/

/-- Two completed placements in disjoint fields leave the same state in either order. -/
theorem complete_commit_merge_comm {l m r l' m' r' : Nat} (h : WordRange l m) (h' : WordRange l' m')
    (hr : r < 2 ^ width l m) (hr' : r' < 2 ^ width l' m')
    (hdisjoint : ∀ k, ¬ ((l ≤ k ∧ k ≤ m) ∧ (l' ≤ k ∧ k ≤ m'))) (s : State) {t t' : State}
    (ht : t = complete (commit s (merge s.w l m r))) (ht' : t' = complete (commit s (merge s.w l' m' r'))) :
    complete (commit t (merge t.w l' m' r')) = complete (commit t' (merge t'.w l m r)) := by
  subst ht ht'
  apply State.ext
  case w => exact commit_merge_comm h h' hr hr' hdisjoint _ s _ s s.w
  all_goals simp

/-- Settles O50: a setter that completes writes the same raw value to the same field in every state with these
parameters, and no bit lies in both fields. -/
theorem disjointSettersCommute : Obligations.DisjointSettersCommute := by
  intro i j s t u hwi hwj hi hj hdisjoint hexec ht hexec' hu
  obtain ⟨hparams, -⟩ := exec_params_port hexec
  obtain ⟨l, m, r, hrange, hr, hbits, places⟩ := setter_completes (isSetter_of_writesW hwi hi) hexec ht
  obtain ⟨l', m', r', hrange', hr', hbits', places'⟩ := setter_completes (isSetter_of_writesW hwj hj) hexec' hu
  have hfields (k : Nat) : ¬ ((l ≤ k ∧ k ≤ m) ∧ (l' ≤ k ∧ k ≤ m')) := by
    rw [← hbits, ← hbits']
    exact hdisjoint k
  cases (places s rfl).symm.trans hexec
  cases (places' _ rfl).symm.trans hexec'
  refine ⟨_, places' s hparams.symm, complete_status _, (places _ ?_).trans (congrArg _ ?_)⟩
  · rw [complete_params, commit_params]
  · exact (complete_commit_merge_comm hrange hrange' hr hr' hfields s rfl rfl).symm

end Sys2Proof.Machine
